-- ==== Sys2Proof/Word.lean ====
section
/-! DEFINITION. The word types of the block and the names of its registers (00_scope.md R9, R10; 10_state.md R20). -/

namespace Sys2Proof

/-- A byte of `BUF` or `RXBUF`, a CRC value, a magic (00_scope.md R9). -/
abbrev Byte := BitVec 8

/-- A register or a half of a CAN identifier: 16 bits (00_scope.md R10). -/
abbrev Half := BitVec 16

/-- A register, a command word, a bus value: 32 bits (00_scope.md R10). -/
abbrev Word := BitVec 32

/-- The 16 registers of 10_state.md R20, in the order of their indices. -/
inductive Reg where
  | CMD | STATUS | SRC | LEN | DST | CAP | RESULT | CRC
  | SEED | CANID | IDF | SENDER | RXDATA | RXSTAT | SENT | SIZES
deriving DecidableEq, Repr

end Sys2Proof
end

