-- ==== Sys2Proof/Config.lean ====
section
/-! DEFINITION. The parameters of an instance (00_scope.md R2 to R8), the constraints they meet (R11), the reference instance REF (R12) with the identifier instance TOY (92_eei_decisions.md D49), and the free bytes (70_reset_and_hazards.md R251). -/

namespace Sys2Proof

/-- One line of the graph of `CANID_PACK`: `CANID_PACK(group, mode, command) = code` (00_scope.md R6). -/
structure PackRow where
  group : Byte
  mode : Byte
  command : Byte
  code : Half
deriving DecidableEq, Repr

/-- Every parameter the spec leaves OPEN (00_scope.md section 4), as plain data.
DESIGN CHOICE (log 2): `CANID_PACK`, a function on a finite domain, is held as its graph, so that it is plain data. -/
structure Params where
  crcPoly : Byte
  soh : Byte
  eot : Byte
  dle : Byte
  groups : List Byte
  modes : List Byte
  packRows : List PackRow
  bufSize : Nat
  rxMax : Nat
deriving DecidableEq, Repr

namespace Params

/-- The bytes that the source's vectors exclude as sentinels (00_scope.md R4 (b)). -/
def nonSentinels : List Byte := [0x00, 0x02, 0x03, 0x04, 0x05, 0x06, 0x07, 0x08]

/-- The sentinel set `S` (42_stuffing.md R140). -/
def sentinels (p : Params) : List Byte := [p.soh, p.eot, p.dle]

/-- 00_scope.md R4: (a) pairwise distinct, (b) none of the excluded bytes, (c) `s ^ 0x20` is no sentinel. -/
abbrev SentinelsOk (p : Params) : Prop :=
  (p.soh ≠ p.eot ∧ p.soh ≠ p.dle ∧ p.eot ≠ p.dle)
    ∧ (∀ s ∈ p.sentinels, s ∉ nonSentinels)
    ∧ ∀ s ∈ p.sentinels, ∀ t ∈ p.sentinels, s ^^^ 0x20 ≠ t

/-- 00_scope.md R2, R7, R8. -/
abbrev NumbersOk (p : Params) : Prop :=
  (p.crcPoly = 0x8C ∨ p.crcPoly = 0xB5)
    ∧ (16 ≤ p.bufSize ∧ p.bufSize ≤ 16384) ∧ (1 ≤ p.rxMax ∧ p.rxMax ≤ 16384)

/-- 00_scope.md R5, R6: two non-empty sets of magics, and the graph of a function on their product with all command
bytes that is injective. -/
structure CanidOk (p : Params) : Prop where
  groups_ne : p.groups ≠ []
  modes_ne : p.modes ≠ []
  groups_nodup : p.groups.Nodup
  modes_nodup : p.modes.Nodup
  domain : ∀ r ∈ p.packRows, r.group ∈ p.groups ∧ r.mode ∈ p.modes
  total : ∀ g ∈ p.groups, ∀ m ∈ p.modes, ∀ c : Byte,
    ∃ r ∈ p.packRows, r.group = g ∧ r.mode = m ∧ r.command = c
  functional : p.packRows.Pairwise fun r t => ¬ (r.group = t.group ∧ r.mode = t.mode ∧ r.command = t.command)
  injective : p.packRows.Pairwise fun r t => r.code ≠ t.code

/-- Every constraint of 00_scope.md R11. -/
structure Valid (p : Params) : Prop where
  numbers : p.NumbersOk
  sentinels : p.SentinelsOk
  canid : p.CanidOk

end Params

/-- An instance of the block: parameters together with the proof that they meet every constraint, so that a
configuration which breaks one admits no run (00_scope.md R11). -/
structure Config where
  params : Params
  valid : params.Valid
deriving DecidableEq, Repr

/-- The free bytes: what a read of a byte that nothing has written gives, one for each draw (70_reset_and_hazards.md
R251: "a read of it is a fresh unconstrained draw"). Nothing constrains them (log 3). -/
opaque Config.freeByte : Nat → BitVec 8

/-- The graph of `f` on `groups × modes × {0..255}`. -/
def packGraph (groups modes : List Byte) (f : Byte → Byte → Byte → Half) : List PackRow :=
  groups.flatMap fun g => modes.flatMap fun m => (List.range 256).map fun c =>
    ⟨g, m, BitVec.ofNat 8 c, f g m (BitVec.ofNat 8 c)⟩

/-- The graph of an injective function on the domain meets the constraints of `CANID_PACK`: the type `Config` leaves no
instance of the spec out. -/
theorem packGraph_canidOk {p : Params} {f : Byte → Byte → Byte → Half}
    (hg : p.groups ≠ []) (hm : p.modes ≠ []) (hgn : p.groups.Nodup) (hmn : p.modes.Nodup)
    (hp : p.packRows = packGraph p.groups p.modes f)
    (hf : ∀ g ∈ p.groups, ∀ m ∈ p.modes, ∀ g' ∈ p.groups, ∀ m' ∈ p.modes, ∀ c c' : Byte,
      f g m c = f g' m' c' → g = g' ∧ m = m' ∧ c = c') : p.CanidOk := by
  have mem : ∀ r ∈ p.packRows, r.group ∈ p.groups ∧ r.mode ∈ p.modes ∧ r.code = f r.group r.mode r.command := by
    intro r hr
    simp only [hp, packGraph, List.mem_flatMap, List.mem_map] at hr
    obtain ⟨g, hg, m, hm, c, -, rfl⟩ := hr
    exact ⟨hg, hm, rfl⟩
  have func : p.packRows.Pairwise
      fun r t => ¬ (r.group = t.group ∧ r.mode = t.mode ∧ r.command = t.command) := by
    rw [hp]
    unfold packGraph
    refine List.pairwise_flatMap.2 ⟨fun g _ => List.pairwise_flatMap.2 ⟨fun m _ => ?_, ?_⟩, ?_⟩
    · refine List.pairwise_map.2 ((List.nodup_range (n := 256)).pairwise_of_forall_ne ?_)
      rintro a ha b hb hab ⟨-, -, h⟩
      simp only [List.mem_range] at ha hb
      have := congrArg BitVec.toNat h
      simp only [BitVec.toNat_ofNat] at this
      omega
    · refine hmn.imp fun {m m'} hne r hr t ht h => hne ?_
      simp only [List.mem_map] at hr ht
      obtain ⟨c, -, rfl⟩ := hr
      obtain ⟨c', -, rfl⟩ := ht
      exact h.2.1
    · refine hgn.imp fun {g g'} hne r hr t ht h => hne ?_
      simp only [List.mem_flatMap, List.mem_map] at hr ht
      obtain ⟨m, -, c, -, rfl⟩ := hr
      obtain ⟨m', -, c', -, rfl⟩ := ht
      exact h.1
  refine ⟨hg, hm, hgn, hmn, fun r hr => ⟨(mem r hr).1, (mem r hr).2.1⟩, fun g hg m hm c => ?_, func, ?_⟩
  · refine ⟨⟨g, m, c, f g m c⟩, ?_, rfl, rfl, rfl⟩
    simp only [hp, packGraph, List.mem_flatMap, List.mem_map, List.mem_range]
    exact ⟨g, hg, m, hm, c.toNat, c.isLt, by simp⟩
  · refine func.imp_of_mem fun {r t} hr ht hne h => hne ?_
    obtain ⟨hr1, hr2, hr3⟩ := mem r hr
    obtain ⟨ht1, ht2, ht3⟩ := mem t ht
    exact hf _ hr1 _ hr2 _ ht1 _ ht2 _ _ (hr3 ▸ ht3 ▸ h)

/-- The layout of `TOY`: `(g << 10) | (m << 8) | c` (92_eei_decisions.md D49). It claims nothing about the protocol. -/
def toyPack (g m c : Byte) : Half :=
  (g.setWidth 16 <<< 10) ||| (m.setWidth 16 <<< 8) ||| c.setWidth 16

/-- Parameters with the identifier instance `TOY` (92_eei_decisions.md D49) and the other values as given. -/
def Params.toy (crcPoly soh eot dle : Byte) (bufSize rxMax : Nat) : Params where
  crcPoly := crcPoly
  soh := soh
  eot := eot
  dle := dle
  groups := [0x01, 0x02, 0x0A]
  modes := [0x00, 0x01, 0x02, 0x03]
  packRows := packGraph [0x01, 0x02, 0x0A] [0x00, 0x01, 0x02, 0x03] toyPack
  bufSize := bufSize
  rxMax := rxMax

theorem toyPack_toNat (g m c : Byte) (hg : g.toNat < 64) (hm : m.toNat < 4) :
    (toyPack g m c).toNat = g.toNat * 1024 + m.toNat * 256 + c.toNat := by
  have h1 := Nat.shiftLeft_add_eq_or_of_lt (i := 8) c.isLt (m.toNat)
  have h2 := Nat.shiftLeft_add_eq_or_of_lt (i := 10) (b := m.toNat <<< 8 ||| c.toNat)
    (by rw [← h1, Nat.shiftLeft_eq]; have := c.isLt; omega) (g.toNat)
  have hc := c.isLt
  simp only [toyPack, BitVec.toNat_or, BitVec.toNat_shiftLeft, BitVec.toNat_setWidth, Nat.lor_assoc]
  rw [Nat.mod_eq_of_lt (a := g.toNat) (by omega), Nat.mod_eq_of_lt (a := m.toNat) (by omega),
    Nat.mod_eq_of_lt (a := c.toNat) (by omega),
    Nat.mod_eq_of_lt (a := g.toNat <<< 10) (by rw [Nat.shiftLeft_eq]; omega),
    Nat.mod_eq_of_lt (a := m.toNat <<< 8) (by rw [Nat.shiftLeft_eq]; omega), ← h2, ← h1,
    Nat.shiftLeft_eq, Nat.shiftLeft_eq]
  omega

/-- `TOY` meets the constraints of `CANID_PACK` (92_eei_decisions.md D49: "It is injective"). -/
theorem Params.toy_canidOk (crcPoly soh eot dle : Byte) (bufSize rxMax : Nat) :
    (Params.toy crcPoly soh eot dle bufSize rxMax).CanidOk := by
  have lt : ∀ g ∈ ([0x01, 0x02, 0x0A] : List Byte), g.toNat < 64 := by decide
  have lt' : ∀ m ∈ ([0x00, 0x01, 0x02, 0x03] : List Byte), m.toNat < 4 := by decide
  refine packGraph_canidOk (f := toyPack) (by simp [toy]) (by simp [toy]) (by simp [toy]) (by simp [toy]) rfl ?_
  intro g hg m hm g' hg' m' hm' c c' h
  have h := congrArg BitVec.toNat h
  have e1 := lt g hg
  have e2 := lt' m hm
  have e3 := lt g' hg'
  have e4 := lt' m' hm'
  have e5 := c.isLt
  have e6 := c'.isLt
  rw [toyPack_toNat g m c e1 e2, toyPack_toNat g' m' c' e3 e4] at h
  refine ⟨BitVec.eq_of_toNat_eq ?_, BitVec.eq_of_toNat_eq ?_, BitVec.eq_of_toNat_eq ?_⟩ <;> omega

/-- An instance with the identifiers of `TOY` and the other parameters as given. -/
def Config.toy (crcPoly soh eot dle : Byte) (bufSize rxMax : Nat)
    (hn : (Params.toy crcPoly soh eot dle bufSize rxMax).NumbersOk)
    (hs : (Params.toy crcPoly soh eot dle bufSize rxMax).SentinelsOk) : Config :=
  ⟨Params.toy crcPoly soh eot dle bufSize rxMax, hn, hs, Params.toy_canidOk ..⟩

/-- The reference configuration `REF` of 00_scope.md R12 with the identifier instance `TOY`.
DESIGN CHOICE (log 1): the instance that `State.reset` starts with; no statement depends on it. -/
def Config.ref : Config :=
  Config.toy 0x8C 0x01 0x17 0x10 1024 256 (by decide) (by decide)

end Sys2Proof
end

