-- ==== Sys2Proof/Syntax.lean ====
section
/-! DEFINITION. The instructions: one constructor for each row of opcode_table.json (30_encoding.md R82, R83). -/

namespace Sys2Proof

/-- Command words (format CMD32, 30_encoding.md R80) and bus operations (format BUS, R83).
A command constructor stands for the write of its command word to `CMD`; of the command words only CRC_BYTE has an
operand, `IMM8` (R81). `a` is the byte address in the window (offset bits 13:0), `v` the value written. -/
inductive Instr where
  | nop
  | crcInit
  | crcByte (imm8 : Byte)
  | crcRange
  | idEncode
  | idDecode
  | escSize
  | escape
  | unescape
  | frame
  | rxReset
  | regRead (r : Reg)
  | regWrite (r : Reg) (v : Word)
  | cmdWrite (w : Word)
  | rxFeed (b : Byte)
  | bufReadB (a : BitVec 14)
  | bufReadW (a : BitVec 14)
  | bufWriteB (a : BitVec 14) (v : Byte)
  | bufWriteW (a : BitVec 14) (v : Word)
  | rxbufReadB (a : BitVec 14)
  | rxbufReadW (a : BitVec 14)
deriving DecidableEq, Repr

end Sys2Proof
end

