-- ==== Sys2Proof/WellFormed.lean ====
section
/-! DEFINITION. The constraints of the opcode table's rows (30_encoding.md R83, the column of offset patterns; 20_memory.md R64). -/

namespace Sys2Proof

/-- A byte access at window address `a` lies inside a window of `size` bytes. -/
abbrev ByteInWindow (size : Nat) (a : BitVec 14) : Prop := a.toNat < size

/-- A word access at window address `a` is aligned and lies wholly inside a window of `size` bytes (20_memory.md R64). -/
abbrev WordInWindow (size : Nat) (a : BitVec 14) : Prop := a.toNat % 4 = 0 ∧ a.toNat + 3 < size

/-- What the offset patterns alone ask of the operands (30_encoding.md R83): REG_WRITE is not CMD and not RXDATA, a word
access has its two low offset bits 0. -/
def Instr.patternOk : Instr → Bool
  | .regWrite r _ => r ≠ .CMD ∧ r ≠ .RXDATA
  | .bufReadW a => a.toNat % 4 = 0
  | .bufWriteW a _ => a.toNat % 4 = 0
  | .rxbufReadW a => a.toNat % 4 = 0
  | .nop | .crcInit | .crcByte _ | .crcRange | .idEncode | .idDecode | .escSize | .escape | .unescape | .frame
  | .rxReset | .regRead _ | .cmdWrite _ | .rxFeed _ | .bufReadB _ | .bufWriteB _ _ | .rxbufReadB _ => true

/-- What the sizes of the windows ask of the operands (30_encoding.md R83: `a < BUF_SIZE`, `a + 3 < BUF_SIZE` and the same
with `RX_MAX`). -/
def Instr.inWindow (c : Config) : Instr → Bool
  | .bufReadB a => ByteInWindow c.params.bufSize a
  | .bufReadW a => WordInWindow c.params.bufSize a
  | .bufWriteB a _ => ByteInWindow c.params.bufSize a
  | .bufWriteW a _ => WordInWindow c.params.bufSize a
  | .rxbufReadB a => ByteInWindow c.params.rxMax a
  | .rxbufReadW a => WordInWindow c.params.rxMax a
  | .nop | .crcInit | .crcByte _ | .crcRange | .idEncode | .idDecode | .escSize | .escape | .unescape | .frame
  | .rxReset | .regRead _ | .regWrite _ _ | .cmdWrite _ | .rxFeed _ => true

/-- An instruction of the table whose constraint holds under the configuration `c`. -/
def Instr.wellFormed (c : Config) (i : Instr) : Bool := i.patternOk && i.inWindow c

end Sys2Proof
end

