-- ==== Sys2Proof/Decode.lean ====
section
/-! DEFINITION. Decoding of command words (30_encoding.md R80 to R85) and of bus transactions (R83, 44_host_access.md R200 to R210), and the encoder of both. -/

namespace Sys2Proof

/-- The direction of a bus transaction (30_encoding.md R83: `R` or `W`). -/
inductive Dir where
  | read | write
deriving DecidableEq, Repr

/-- The width of a bus transaction: 8 or 32 bits, and the 16-bit transfer that the block answers with a bus fault
(44_host_access.md R200, R210). -/
inductive Width where
  | byte | half | word
deriving DecidableEq, Repr

/-- A bus transaction as the host issues it (44_host_access.md R200). A byte write carries its byte in `value` bits 7:0
(R206); a read's `value` means nothing. -/
structure Transaction where
  dir : Dir
  width : Width
  offset : Half
  value : Word
deriving DecidableEq, Repr

/-- The commands of 30_encoding.md R82. -/
inductive Command where
  | nop | crcInit | crcByte (imm8 : Byte) | crcRange | idEncode | idDecode
  | escSize | escape | unescape | frame | rxReset
deriving DecidableEq, Repr

/-- The row of the table that a command is. -/
def Command.toInstr : Command → Instr
  | .nop => .nop
  | .crcInit => .crcInit
  | .crcByte imm8 => .crcByte imm8
  | .crcRange => .crcRange
  | .idEncode => .idEncode
  | .idDecode => .idDecode
  | .escSize => .escSize
  | .escape => .escape
  | .unescape => .unescape
  | .frame => .frame
  | .rxReset => .rxReset

/-- Why a word written to `CMD` is no command (30_encoding.md R84). -/
inductive CommandError where
  /-- `RSVD != 0` (30_encoding.md R80). -/
  | reservedBits (rsvd : Half)
  /-- An opcode that R82 does not list (30_encoding.md R84). -/
  | unlistedOpcode (opcode : Byte)
deriving DecidableEq, Repr

/-- Why a bus transaction is no bus operation (44_host_access.md R210). -/
inductive BusError where
  /-- A 16-bit bus access (44_host_access.md R210). -/
  | halfWidth
  /-- An offset outside every region of the map (20_memory.md R61). -/
  | unmapped
  /-- A byte access to `REGS` (44_host_access.md R210). -/
  | byteToRegs
  /-- A word access at an offset that is not a multiple of 4 (44_host_access.md R210). -/
  | misaligned
  /-- A write to the `RXBUF` window (44_host_access.md R210). -/
  | rxbufWrite
deriving DecidableEq, Repr

/-- Why an input is no instruction. -/
inductive DecodeError where
  | command (e : CommandError)
  | bus (e : BusError)
deriving DecidableEq, Repr

/-- `OPCODE` of a command word, bits 7:0 (30_encoding.md R80). -/
def cmdOpcode (w : Word) : Byte := w.extractLsb' 0 8

/-- `IMM8` of a command word, bits 15:8 (30_encoding.md R80). -/
def cmdImm8 (w : Word) : Byte := w.extractLsb' 8 8

/-- `RSVD` of a command word, bits 31:16 (30_encoding.md R80). -/
def cmdRsvd (w : Word) : Half := w.extractLsb' 16 16

/-- The opcode map of 30_encoding.md R82. -/
def decodeOpcode (op imm8 : Byte) : Except CommandError Command :=
  if op = 0x00 then .ok .nop
  else if op = 0x01 then .ok .crcInit
  else if op = 0x02 then .ok (.crcByte imm8)
  else if op = 0x03 then .ok .crcRange
  else if op = 0x10 then .ok .idEncode
  else if op = 0x11 then .ok .idDecode
  else if op = 0x20 then .ok .escSize
  else if op = 0x21 then .ok .escape
  else if op = 0x22 then .ok .unescape
  else if op = 0x23 then .ok .frame
  else if op = 0x30 then .ok .rxReset
  else .error (.unlistedOpcode op)

/-- The command that a word written to `CMD` encodes (30_encoding.md R80): first `RSVD`, then the opcode. -/
def decodeCommand (w : Word) : Except CommandError Command :=
  if cmdRsvd w ≠ 0 then .error (.reservedBits (cmdRsvd w)) else decodeOpcode (cmdOpcode w) (cmdImm8 w)

/-- The register of index `i` (10_state.md R20). -/
def Reg.ofIndex (i : BitVec 4) : Reg :=
  match i.toNat with
  | 0 => .CMD
  | 1 => .STATUS
  | 2 => .SRC
  | 3 => .LEN
  | 4 => .DST
  | 5 => .CAP
  | 6 => .RESULT
  | 7 => .CRC
  | 8 => .SEED
  | 9 => .CANID
  | 10 => .IDF
  | 11 => .SENDER
  | 12 => .RXDATA
  | 13 => .RXSTAT
  | 14 => .SENT
  | _ => .SIZES

/-- The index of a register (10_state.md R20). -/
def Reg.index : Reg → BitVec 4
  | .CMD => 0
  | .STATUS => 1
  | .SRC => 2
  | .LEN => 3
  | .DST => 4
  | .CAP => 5
  | .RESULT => 6
  | .CRC => 7
  | .SEED => 8
  | .CANID => 9
  | .IDF => 10
  | .SENDER => 11
  | .RXDATA => 12
  | .RXSTAT => 13
  | .SENT => 14
  | .SIZES => 15

/-- The bus offset of a register: `0000000000rrrr00` (30_encoding.md R83, 10_state.md R20). -/
def Reg.offset (r : Reg) : Half := 0#10 ++ r.index ++ 0#2

/-- The regions of the bus map (20_memory.md R61). A window's region holds every offset of its pattern; that the access
lies inside the window is checked by its meaning, which knows the size. -/
inductive Region where
  | regs (r : Reg)
  | buf (a : BitVec 14)
  | rxbuf (a : BitVec 14)
  | unmapped
deriving DecidableEq, Repr

/-- The region of an offset (20_memory.md R61): offset bits 15:14 are 01 in the `BUF` window and 10 in the `RXBUF` window,
bits 15:6 are 0 in `REGS`. -/
def regionOf (offset : Half) : Region :=
  if offset.extractLsb' 14 2 = 0b01 then .buf (offset.extractLsb' 0 14)
  else if offset.extractLsb' 14 2 = 0b10 then .rxbuf (offset.extractLsb' 0 14)
  else if offset.extractLsb' 6 10 = 0 then .regs (Reg.ofIndex (offset.extractLsb' 2 4))
  else .unmapped

/-- Byte accesses: the windows only (20_memory.md R64, R65). -/
def decodeByteAccess (t : Transaction) : Except BusError Instr :=
  match regionOf t.offset, t.dir with
  | .regs _, _ => .error .byteToRegs
  | .buf a, .read => .ok (.bufReadB a)
  | .buf a, .write => .ok (.bufWriteB a (t.value.extractLsb' 0 8))
  | .rxbuf a, .read => .ok (.rxbufReadB a)
  | .rxbuf _, .write => .error .rxbufWrite
  | .unmapped, _ => .error .unmapped

/-- A register write: `CMD` runs a command, `RXDATA` feeds the deframer, the others are REG_WRITE (30_encoding.md R83). -/
def decodeRegWrite (r : Reg) (v : Word) : Instr :=
  if r = .CMD then .cmdWrite v
  else if r = .RXDATA then .rxFeed (v.extractLsb' 0 8)
  else .regWrite r v

/-- Word accesses at a multiple of 4 (20_memory.md R64, R65). -/
def decodeWordAccess (t : Transaction) : Except BusError Instr :=
  match regionOf t.offset, t.dir with
  | .unmapped, _ => .error .unmapped
  | .rxbuf _, .write => .error .rxbufWrite
  | .regs r, .read => if t.offset.extractLsb' 0 2 = 0 then .ok (.regRead r) else .error .misaligned
  | .regs r, .write => if t.offset.extractLsb' 0 2 = 0 then .ok (decodeRegWrite r t.value) else .error .misaligned
  | .buf a, .read => if t.offset.extractLsb' 0 2 = 0 then .ok (.bufReadW a) else .error .misaligned
  | .buf a, .write => if t.offset.extractLsb' 0 2 = 0 then .ok (.bufWriteW a t.value) else .error .misaligned
  | .rxbuf a, .read => if t.offset.extractLsb' 0 2 = 0 then .ok (.rxbufReadW a) else .error .misaligned

/-- The bus operation that a transaction is (30_encoding.md R83, 44_host_access.md R200, R210).
DESIGN CHOICE (log 9): the name of a refused access, where several causes of R210 hold. -/
def decodeTransaction (t : Transaction) : Except BusError Instr :=
  match t.width with
  | .half => .error .halfWidth
  | .byte => decodeByteAccess t
  | .word => decodeWordAccess t

/-- An input in one of the two formats of the table: a command word (CMD32) or a bus transaction (BUS)
(30_encoding.md section 1). -/
inductive Packet where
  | cmd32 (w : Word)
  | bus (t : Transaction)
deriving DecidableEq, Repr

/-- The decoder of both formats, total, rejecting by name. -/
def decode : Packet → Except DecodeError Instr
  | .cmd32 w =>
    match decodeCommand w with
    | .ok c => .ok c.toInstr
    | .error e => .error (.command e)
  | .bus t =>
    match decodeTransaction t with
    | .ok i => .ok i
    | .error e => .error (.bus e)

/-! ## The encoder -/

/-- A command word of 30_encoding.md R80 with `RSVD = 0`. -/
def commandWord (imm8 op : Byte) : Word := 0#16 ++ imm8 ++ op

/-- A read of `width` at `offset`. -/
def busRead (width : Width) (offset : Half) : Packet := .bus ⟨.read, width, offset, 0⟩

/-- A write of `width` at `offset`. -/
def busWrite (width : Width) (offset : Half) (v : Word) : Packet := .bus ⟨.write, width, offset, v⟩

/-- The offset of byte `a` of the `BUF` window, pattern `01aaaaaaaaaaaaaa` (30_encoding.md R83). -/
def bufOffset (a : BitVec 14) : Half := 0b01#2 ++ a

/-- The offset of byte `a` of the `RXBUF` window, pattern `10aaaaaaaaaaaaaa` (30_encoding.md R83). -/
def rxbufOffset (a : BitVec 14) : Half := 0b10#2 ++ a

/-- The encoding of each row (30_encoding.md R82, R83). Don't-care bits are 0. -/
def encode : Instr → Packet
  | .nop => .cmd32 (commandWord 0 0x00)
  | .crcInit => .cmd32 (commandWord 0 0x01)
  | .crcByte imm8 => .cmd32 (commandWord imm8 0x02)
  | .crcRange => .cmd32 (commandWord 0 0x03)
  | .idEncode => .cmd32 (commandWord 0 0x10)
  | .idDecode => .cmd32 (commandWord 0 0x11)
  | .escSize => .cmd32 (commandWord 0 0x20)
  | .escape => .cmd32 (commandWord 0 0x21)
  | .unescape => .cmd32 (commandWord 0 0x22)
  | .frame => .cmd32 (commandWord 0 0x23)
  | .rxReset => .cmd32 (commandWord 0 0x30)
  | .regRead r => busRead .word r.offset
  | .regWrite r v => busWrite .word r.offset v
  | .cmdWrite w => busWrite .word 0x0000 w
  | .rxFeed b => busWrite .word 0x0030 (b.setWidth 32)
  | .bufReadB a => busRead .byte (bufOffset a)
  | .bufReadW a => busRead .word (bufOffset a)
  | .bufWriteB a v => busWrite .byte (bufOffset a) (v.setWidth 32)
  | .bufWriteW a v => busWrite .word (bufOffset a) v
  | .rxbufReadB a => busRead .byte (rxbufOffset a)
  | .rxbufReadW a => busRead .word (rxbufOffset a)

/-- The bus transaction that delivers an input: a command word is written to `CMD` as 32 bits at offset 0x0000
(30_encoding.md R80, 44_host_access.md R203). -/
def Packet.transaction : Packet → Transaction
  | .cmd32 w => ⟨.write, .word, 0x0000, w⟩
  | .bus t => t

/-! ## The opcode table's bits -/

/-- A bus transaction from bits: bits 15:0 are the offset, as the table numbers them.
DESIGN CHOICE (log 8): the table gives no bits to direction, width and value; here bit 16 is the direction (0 read,
1 write), bits 18:17 the width (00 word, 01 byte, 10 and 11 half), bits 63:32 the value. -/
def Transaction.ofBits (n : Nat) : Transaction where
  dir := if (n / 2 ^ 16) % 2 = 0 then .read else .write
  width := if (n / 2 ^ 17) % 4 = 0 then .word else if (n / 2 ^ 17) % 4 = 1 then .byte else .half
  offset := BitVec.ofNat 16 n
  value := BitVec.ofNat 32 (n / 2 ^ 32)

/-- The input whose bits are `w`: a row of 32 bits is a command word, a row of 16 bits is a bus transaction whose other
bits are 0. -/
def tablePacket (nbits w : Nat) : Packet :=
  if nbits = 32 then .cmd32 (BitVec.ofNat 32 w) else .bus (Transaction.ofBits (w % 2 ^ nbits))

/-- The instruction that the decoder reads from the bits `w` of a row of `nbits` bits. -/
def decodeTableWord (nbits w : Nat) : Option Instr :=
  match decode (tablePacket nbits w) with
  | .ok i => some i
  | .error _ => none

end Sys2Proof
end

