-- ==== Sys2Proof/Machine/State.lean ====
section
/-! DEFINITION. The state of the block (10_state.md), the pending host events and the bus's answer, the reasons a step can stop, and the state after reset (70_reset_and_hazards.md R250, R251). -/

namespace Sys2Proof.Machine

/-- Command error codes, the legal values of `STATUS.ERR` (60_exceptions.md R220; codes 6 to 15 are never written). -/
inductive ErrCode where
  | ok | unknownEncoding | bufferTooSmall | truncatedEscape | rangeError | illegalCommand
deriving DecidableEq, Repr

/-- Receive event codes, the legal values of `RXSTAT.EVT` (60_exceptions.md R221; codes 6 to 15 are never posted). -/
inductive RxEvent where
  | none | frameOk | checksumMismatch | truncatedEscape | overflow | aborted
deriving DecidableEq, Repr

/-- The deframer states (10_state.md R41; the value 3 is never held). -/
inductive RxState where
  | idle | inFrame | inEscape
deriving DecidableEq, Repr

/-- What the bus answered to the most recent transaction. The model's own (log 6). -/
inductive BusResponse where
  /-- No transaction has completed since reset. -/
  | none
  /-- A write completed. -/
  | done
  /-- A byte read returned `v` (44_host_access.md R204, R208). -/
  | byte (v : Byte)
  /-- A word read returned `v` (44_host_access.md R201, R205, R209). -/
  | word (v : Word)
deriving DecidableEq, Repr

/-- What the outside world does next: a bus transaction of the host (44_host_access.md R200), or a pulse of the reset
input by the platform (70_reset_and_hazards.md R250; log 7). -/
inductive HostEvent where
  | bus (t : Transaction)
  | reset
deriving DecidableEq, Repr

/-- The bytes of `BUF` or of `RXBUF` that have been written: (address, byte) cells. -/
abbrev Memory := List Host.Cell

/-- What an unlisted address holds: no value (70_reset_and_hazards.md R251: "A model gives such a byte no value"). A read
of it is a free byte (`Config.freeByte`; log 3). -/
def Memory.unlisted : Option Byte := none

/-- The canonical form: addresses strictly rising, and no cell equal to what an unlisted address holds. -/
abbrev Memory.wf (m : Memory) : Prop :=
  m.Pairwise (fun a b => a.1 < b.1) ∧ ∀ c ∈ m, some c.2 ≠ Memory.unlisted

/-- The state of the block. The field comments name the register or unit of 10_state.md. -/
structure State where
  /-- The parameters, never written: `SENT` (R37), `SIZES` (R38) and those no register shows (00_scope.md R2 to R8). -/
  cfg : Config
  /-- `STATUS.ERR` (R25). -/
  err : ErrCode
  /-- `SRC.ADDR` (R26). -/
  src : Half
  /-- `LEN.N` (R27). -/
  len : Half
  /-- `DST.ADDR` (R28). -/
  dst : Half
  /-- `CAP.N` (R29). -/
  cap : Half
  /-- `RESULT.VALUE` (R30). -/
  result : Word
  /-- `CRC.VALUE` (R31). -/
  crc : Byte
  /-- `SEED.VALUE` (R32). -/
  seed : Byte
  /-- `CANID.VALUE` (R33). -/
  canid : Word
  /-- `IDF.GROUP` (R34). -/
  idGroup : Byte
  /-- `IDF.MODE` (R34). -/
  idMode : Byte
  /-- `IDF.COMMAND` (R34). -/
  idCommand : Byte
  /-- `SENDER.ADDR` (R35). -/
  sender : Half
  /-- `RXSTATE` (R41). -/
  rxState : RxState
  /-- `RXLEN` (R42). -/
  rxLen : Half
  /-- `EVT` (R43). -/
  evt : RxEvent
  /-- `SEQ` (R44). -/
  seq : Byte
  /-- `BUF` (R45). -/
  buf : Memory
  /-- `RXBUF` (R46). -/
  rxbuf : Memory
  /-- The number of free bytes drawn so far. The model's own (log 3). -/
  draws : Nat
  /-- What the bus answered last. The model's own (log 6). -/
  resp : BusResponse
  /-- The pending events of host and platform, oldest first. The model's own (log 4). -/
  host : List HostEvent
deriving DecidableEq, Repr

/-- Why a step stops: the bus faults of 44_host_access.md R210, an error response on the transaction that changes no state
and that a model of the host treats as a fault of the transaction (60_exceptions.md R224; log 5). Every one is safe: the
model stops where the block would take the host's next transaction. -/
inductive Fault where
  /-- An access to an offset outside every region of the map (20_memory.md R61). Raised by the fetch of a transaction. Safe. -/
  | unmapped
  /-- A byte access to `REGS` (R210). Raised by the fetch of a transaction. Safe. -/
  | byteToRegs
  /-- A word access at an offset that is not a multiple of 4 (R210). Raised by the fetch of a transaction, and by a word
  meaning applied to such an address. Safe. -/
  | misaligned
  /-- An access of a window's pattern whose bytes do not all lie inside the window: an unmapped offset past its end, or a
  word that runs past it (R61, R210). Raised by the meanings of the window accesses. Safe. -/
  | pastWindow
  /-- A write to the `RXBUF` window (R210). Raised by the fetch of a transaction. Safe. -/
  | rxbufWrite
  /-- A 16-bit access (R210). Raised by the fetch of a transaction. Safe. -/
  | halfWidth
deriving DecidableEq, Repr

/-- Why a step has no meaning. -/
inductive Refusal where
  /-- The instruction named has no meaning in this model. Raised by an arm of `exec` without one; no arm is. Safe. -/
  | notModelled (mnemonic : String)
deriving DecidableEq, Repr

/-- The state after reset on the instance `c` (70_reset_and_hazards.md R250; R251: nothing is listed in the memories). -/
def State.resetOf (c : Config) : State where
  cfg := c
  err := .ok
  src := 0
  len := 0
  dst := 0
  cap := 0
  result := 0
  crc := 0xFF
  seed := 0xFF
  canid := 0
  idGroup := 0
  idMode := 0
  idCommand := 0
  sender := 0
  rxState := .idle
  rxLen := 0
  evt := .none
  seq := 0
  buf := []
  rxbuf := []
  draws := 0
  resp := .none
  host := []

/-- The state after reset, of the reference instance (log 1). -/
def State.reset : State := State.resetOf Config.ref

end Sys2Proof.Machine
end

