-- ==== Sys2Proof/Machine/Ops.lean ====
section
/-! DEFINITION. The named operations over the memories and the registers: byte access, ranges, errors, answers, reset. -/

namespace Sys2Proof.Machine

/-! ## Memories -/

/-- The byte an address holds, if it has one. -/
def Memory.read? : Memory → Nat → Option Byte
  | [], _ => Memory.unlisted
  | (b, w) :: m, a => if a = b then some w else read? m a

/-- Store one byte, keeping the addresses rising. -/
def Memory.write : Memory → Nat → Byte → Memory
  | [], a, v => [(a, v)]
  | (b, w) :: m, a, v =>
    if a < b then (a, v) :: (b, w) :: m
    else if a = b then (a, v) :: m
    else (b, w) :: write m a v

/-- Store bytes at `a`, `a + 1`, ... -/
def Memory.writeAll : Memory → Nat → List Byte → Memory
  | m, _, [] => m
  | m, a, v :: vs => writeAll (m.write a v) (a + 1) vs

/-- Read one byte: the byte the address holds, or the free byte number `d` (70_reset_and_hazards.md R251; log 3). -/
def Memory.byteAt (m : Memory) (a d : Nat) : Byte := (m.read? a).getD (Config.freeByte d)

/-- Read the `n` bytes from `a` on, `M[a..a+n)`; the byte read k-th has the draw number `d + k`. -/
def Memory.bytesAt (m : Memory) : Nat → Nat → Nat → List Byte
  | _, 0, _ => []
  | a, n + 1, d => m.byteAt a d :: m.bytesAt (a + 1) n (d + 1)

/-- A word of four bytes, little-endian (20_memory.md R62). -/
def wordOfBytes (b0 b1 b2 b3 : Byte) : Word := b3 ++ b2 ++ b1 ++ b0

/-- The four bytes of a word, little-endian (20_memory.md R62). -/
def bytesOfWord (v : Word) : List Byte :=
  [v.extractLsb' 0 8, v.extractLsb' 8 8, v.extractLsb' 16 8, v.extractLsb' 24 8]

/-- Read the word at `a` (44_host_access.md R205, R209). -/
def Memory.wordAt (m : Memory) (a d : Nat) : Word :=
  wordOfBytes (m.byteAt a d) (m.byteAt (a + 1) (d + 1)) (m.byteAt (a + 2) (d + 2)) (m.byteAt (a + 3) (d + 3))

/-! ## Errors: what stands here in the place of taking an exception -/

/-- `raise E`: the one shared way a command fails (60_exceptions.md R222): `STATUS.ERR <- code(E)` and nothing else. The
block takes no traps and has no return from one (R226, R227). -/
def State.raise (s : State) (e : ErrCode) : State := { s with err := e }

/-- The end of a command that succeeds: `STATUS.ERR <- OK` (60_exceptions.md R222). -/
def State.succeed (s : State) : State := { s with err := .ok }

/-- `n` bytes have been read, so the next read takes other free bytes (log 3). -/
def State.drawn (s : State) (n : Nat) : State := { s with draws := s.draws + n }

/-- The bus answers. -/
def State.respond (s : State) (r : BusResponse) : State := { s with resp := r }

/-- The whole of a successful command's effect on `RESULT` and `STATUS` (10_state.md R30, 60_exceptions.md R222). -/
def State.finish (s : State) (result : Word) : State := { s with result := result, err := .ok }

/-! ## Window accesses of the host -/

/-- A byte access at `a` to a window of `size` bytes runs `act`, or is a bus fault (44_host_access.md R210). -/
def byteWindow (size : Nat) (a : BitVec 14) (act : State) : Host.Outcome State Fault Refusal :=
  if ByteInWindow size a then .next act else .fault .pastWindow

/-- A word access at `a` to a window of `size` bytes runs `act`, or is a bus fault (44_host_access.md R210). -/
def wordWindow (size : Nat) (a : BitVec 14) (act : State) : Host.Outcome State Fault Refusal :=
  if a.toNat % 4 ≠ 0 then .fault .misaligned
  else if a.toNat + 3 < size then .next act
  else .fault .pastWindow

/-! ## Reset -/

/-- A pulse of the reset input: every register and the deframer state at the reset values, the memories unspecified
(70_reset_and_hazards.md R250, R251). The parameters stay; so do the pending events and the count of draws, which are the
model's own (log 7). -/
def State.applyReset (s : State) : State :=
  { State.resetOf s.cfg with draws := s.draws, host := s.host }

end Sys2Proof.Machine
end

