-- ==== Sys2Proof/Machine/CanId.lean ====
section
/-! DEFINITION. The CAN identifier encoder and decoder (41_canid.md). -/

namespace Sys2Proof.Machine

/-- `CANID_PACK(g, m, c)`; none outside `GROUP_SET × MODE_SET` (00_scope.md R6). -/
def canidPack (p : Params) (g m c : Byte) : Option Half :=
  (p.packRows.find? fun r => r.group = g ∧ r.mode = m ∧ r.command = c).map PackRow.code

/-- The domain triple whose `CANID_PACK` is `u`, if there is one (41_canid.md R122). -/
def canidUnpack (p : Params) (u : Half) : Option (Byte × Byte × Byte) :=
  (p.packRows.find? fun r => r.code = u).map fun r => (r.group, r.mode, r.command)

/-- `encode(g, m, c, a)` (41_canid.md R121); none outside the domain of R120. -/
def canidEncode (p : Params) (g m c : Byte) (a : Half) : Option Word :=
  (canidPack p g m c).map fun u => u ++ a

/-- `decode(w)` (41_canid.md R122); none is `UnknownEncoding`. -/
def canidDecode (p : Params) (w : Word) : Option (Byte × Byte × Byte × Half) :=
  (canidUnpack p (w.extractLsb' 16 16)).map fun (g, m, c) => (g, m, c, w.extractLsb' 0 16)

/-- ID_ENCODE (41_canid.md R123). -/
def execIdEncode (s : State) : Host.Outcome State Fault Refusal :=
  if s.idGroup ∈ s.cfg.params.groups ∧ s.idMode ∈ s.cfg.params.modes then
    match canidEncode s.cfg.params s.idGroup s.idMode s.idCommand s.sender with
    | some w => .next { s with canid := w }.succeed
    | none => .next (s.raise .unknownEncoding)
  else .next (s.raise .unknownEncoding)

/-- ID_DECODE (41_canid.md R124). -/
def execIdDecode (s : State) : Host.Outcome State Fault Refusal :=
  match canidDecode s.cfg.params s.canid with
  | some (g, m, c, a) => .next { s with idGroup := g, idMode := m, idCommand := c, sender := a }.succeed
  | none => .next (s.raise .unknownEncoding)

end Sys2Proof.Machine
end

