-- ==== Sys2Proof/Machine/Flags.lean ====
section
/-! DEFINITION. The status flags (10_state.md R47): error and event codes, the registers that show them, posting an event. -/

namespace Sys2Proof.Machine

/-- The codes of `STATUS.ERR` (60_exceptions.md R220). -/
def ErrCode.code : ErrCode → BitVec 4
  | .ok => 0
  | .unknownEncoding => 1
  | .bufferTooSmall => 2
  | .truncatedEscape => 3
  | .rangeError => 4
  | .illegalCommand => 5

/-- The codes of `RXSTAT.EVT` (60_exceptions.md R221). -/
def RxEvent.code : RxEvent → BitVec 4
  | .none => 0
  | .frameOk => 1
  | .checksumMismatch => 2
  | .truncatedEscape => 3
  | .overflow => 4
  | .aborted => 5

/-- The encoding of `RXSTATE` in `RXSTAT.STATE` (10_state.md R41). -/
def RxState.code : RxState → BitVec 2
  | .idle => 0
  | .inFrame => 1
  | .inEscape => 2

/-- The value of `STATUS`: `ERR` bits 3:0, `BUSY` bit 8 hardwired 0, the rest reserved (10_state.md R25). -/
def State.statusWord (s : State) : Word := 0#28 ++ s.err.code

/-- The value of `RXSTAT`: `STATE` bits 1:0, `EVT` bits 7:4, `SEQ` bits 15:8, `LEN` bits 31:16 (10_state.md R39). -/
def State.rxstatWord (s : State) : Word := s.rxLen ++ s.seq ++ s.evt.code ++ 0#2 ++ s.rxState.code

/-- `post(e)` (43_deframer.md R171): `EVT <- code(e)`, `SEQ <- (SEQ + 1) mod 256`. -/
def State.post (s : State) (e : RxEvent) : State := { s with evt := e, seq := s.seq + 1 }

end Sys2Proof.Machine
end

