-- ==== Sys2Proof/Machine/Operands.lean ====
section
/-! DEFINITION. Operand forms: the ranges of the commands (20_memory.md R63, R70; 30_encoding.md R81). -/

namespace Sys2Proof.Machine

/-- `SrcOK` on unbounded integers (20_memory.md R63). -/
abbrev State.SrcOK (s : State) : Prop := s.src.toNat + s.len.toNat ≤ s.cfg.params.bufSize

/-- `DstOK` on unbounded integers (20_memory.md R63). -/
abbrev State.DstOK (s : State) : Prop := s.dst.toNat + s.cap.toNat ≤ s.cfg.params.bufSize

/-- `Disjoint` on unbounded integers (20_memory.md R63). -/
abbrev State.Disjoint (s : State) : Prop :=
  s.len = 0 ∨ s.cap = 0 ∨ s.src.toNat + s.len.toNat ≤ s.dst.toNat ∨ s.dst.toNat + s.cap.toNat ≤ s.src.toNat

/-- The source range `BUF[SRC .. SRC+LEN)`, read whole at the command's start (20_memory.md R70). -/
def State.sourceBytes (s : State) : List Byte := s.buf.bytesAt s.src.toNat s.len.toNat s.draws

/-- The state once the source range has been read. -/
def State.sourceRead (s : State) : State := s.drawn s.len.toNat

/-- The shape of ESCAPE, UNESCAPE and FRAME (42_stuffing.md R151 to R153, order of checks 60_exceptions.md R223): check the
ranges, read the source, compute the output with `f`, check the capacity, write the output at `DST`. -/
def State.transform (s : State) (f : List Byte → Except ErrCode (List Byte)) : State :=
  if ¬ (s.SrcOK ∧ s.DstOK) then s.raise .rangeError
  else if ¬ s.Disjoint then s.raise .rangeError
  else
    match f s.sourceBytes with
    | .error e => s.sourceRead.raise e
    | .ok out =>
      if s.cap.toNat < out.length then s.sourceRead.raise .bufferTooSmall
      else
        { s.sourceRead with buf := s.buf.writeAll s.dst.toNat out }.finish (BitVec.ofNat 32 out.length)

end Sys2Proof.Machine
end

