-- ==== Sys2Proof/Machine/Crc.lean ====
section
/-! DEFINITION. The CRC-8 checksum generator (40_crc.md). -/

namespace Sys2Proof.Machine

/-- One shift of the CRC register: right, with `CRC_POLY` XORed in when the bit shifted out is 1 (40_crc.md R100). -/
def crcShift (poly t : Byte) : Byte := if t.getLsbD 0 then (t >>> 1) ^^^ poly else t >>> 1

/-- `crc8_step(c, b)`: eight shifts of `c ^ b` (40_crc.md R100). -/
def crc8Step (poly c b : Byte) : Byte := Nat.iterate (crcShift poly) 8 (c ^^^ b)

/-- `crc8(seed, s)` (40_crc.md R101). -/
def crc8 (poly seed : Byte) (s : List Byte) : Byte := s.foldl (crc8Step poly) seed

/-- Load the accumulator and `RESULT` with `c` and report success, as the three CRC commands do (40_crc.md R105 to R107). -/
def State.loadCrc (s : State) (c : Byte) : State := { s with crc := c }.finish (c.setWidth 32)

/-- CRC_INIT (40_crc.md R105). -/
def execCrcInit (s : State) : Host.Outcome State Fault Refusal :=
  .next (s.loadCrc s.seed)

/-- CRC_BYTE (40_crc.md R106). -/
def execCrcByte (imm8 : Byte) (s : State) : Host.Outcome State Fault Refusal :=
  .next (s.loadCrc (crc8Step s.cfg.params.crcPoly s.crc imm8))

/-- CRC_RANGE (40_crc.md R107): continues from `CRC`, not from `SEED`. -/
def execCrcRange (s : State) : Host.Outcome State Fault Refusal :=
  if s.SrcOK then .next (s.sourceRead.loadCrc (crc8 s.cfg.params.crcPoly s.crc s.sourceBytes))
  else .next (s.raise .rangeError)

end Sys2Proof.Machine
end

