-- ==== Sys2Proof/Machine/Stuffing.lean ====
section
/-! DEFINITION. The byte-stuffing framer (42_stuffing.md). -/

namespace Sys2Proof.Machine

/-- `isSentinel(b)` (42_stuffing.md R140). -/
abbrev isSentinel (p : Params) (b : Byte) : Prop := b = p.soh ∨ b = p.eot ∨ b = p.dle

/-- The escape transform's XOR (00_scope.md R9). -/
def escapeXor (b : Byte) : Byte := b ^^^ 0x20

/-- `escByte(b)` (42_stuffing.md R141). -/
def escByte (p : Params) (b : Byte) : List Byte := if isSentinel p b then [p.dle, escapeXor b] else [b]

/-- `escape(raw)` (42_stuffing.md R142). -/
def escape (p : Params) (raw : List Byte) : List Byte := raw.flatMap (escByte p)

/-- `escapedSize(raw)`: the length plus the count of sentinels (42_stuffing.md R143). -/
def escapedSize (p : Params) (raw : List Byte) : Nat := raw.length + raw.countP (fun b => isSentinel p b)

/-- Unescape scanning byte by byte; `true` when the byte before was a `DLE` that begins a pair (42_stuffing.md R144). -/
def unescapeFrom (p : Params) : Bool → List Byte → Option (List Byte)
  | false, [] => some []
  | true, [] => none
  | false, b :: e => if b = p.dle then unescapeFrom p true e else (unescapeFrom p false e).map (b :: ·)
  | true, x :: e => (unescapeFrom p false e).map (escapeXor x :: ·)

/-- `unescape(e)`; none is `TruncatedEscape` (42_stuffing.md R144). -/
def unescape (p : Params) (e : List Byte) : Option (List Byte) := unescapeFrom p false e

/-- `frame(seed, p)` (42_stuffing.md R145). -/
def frame (p : Params) (seed : Byte) (payload : List Byte) : List Byte :=
  [p.soh] ++ escape p (payload ++ [crc8 p.crcPoly seed payload]) ++ [p.eot]

/-- ESC_SIZE (42_stuffing.md R150). -/
def execEscSize (s : State) : Host.Outcome State Fault Refusal :=
  if s.SrcOK then .next (s.sourceRead.finish (BitVec.ofNat 32 (escapedSize s.cfg.params s.sourceBytes)))
  else .next (s.raise .rangeError)

/-- ESCAPE (42_stuffing.md R151). -/
def execEscape (s : State) : Host.Outcome State Fault Refusal :=
  .next (s.transform fun raw => .ok (escape s.cfg.params raw))

/-- UNESCAPE (42_stuffing.md R152). -/
def execUnescape (s : State) : Host.Outcome State Fault Refusal :=
  .next (s.transform fun e =>
    match unescape s.cfg.params e with
    | some r => .ok r
    | none => .error .truncatedEscape)

/-- FRAME (42_stuffing.md R153): the checksum comes from `SEED`; `CRC` is not written. -/
def execFrame (s : State) : Host.Outcome State Fault Refusal :=
  .next (s.transform fun payload => .ok (frame s.cfg.params s.seed payload))

end Sys2Proof.Machine
end

