-- ==== Sys2Proof/Machine/Deframer.lean ====
section
/-! DEFINITION. The receive deframer (43_deframer.md). -/

namespace Sys2Proof.Machine

/-- `append(v)` with the overflow bound `RX_MAX` (43_deframer.md R172). -/
def State.append (s : State) (v : Byte) : State :=
  if s.rxLen.toNat = s.cfg.params.rxMax then { s.post .overflow with rxLen := 0, rxState := .idle }
  else { s with rxbuf := s.rxbuf.write s.rxLen.toNat v, rxLen := s.rxLen + 1 }

/-- `SOH` inside a frame: abandon it and start a new one (43_deframer.md R175, R179). -/
def State.restart (s : State) : State := { s.post .aborted with rxLen := 0, rxState := .inFrame }

/-- The checksum check of a received frame of `RXLEN` bytes, its last byte the checksum (43_deframer.md R176). -/
abbrev State.checksumOk (s : State) : Prop :=
  1 ≤ s.rxLen.toNat ∧
    crc8 s.cfg.params.crcPoly s.seed (s.rxbuf.bytesAt 0 (s.rxLen.toNat - 1) s.draws)
      = s.rxbuf.byteAt (s.rxLen.toNat - 1) (s.draws + (s.rxLen.toNat - 1))

/-- `EOT` in `InFrame`: the frame ends and its checksum is validated (43_deframer.md R176). The bytes of the frame have
been read (log 3). -/
def State.endFrame (s : State) : State :=
  if s.checksumOk then
    { (s.drawn s.rxLen.toNat).post .frameOk with rxLen := s.rxLen - 1, rxState := .idle }
  else
    { (s.drawn s.rxLen.toNat).post .checksumMismatch with rxLen := 0, rxState := .idle }

/-- `EOT` in `InEscape` (43_deframer.md R180). -/
def State.truncated (s : State) : State := { s.post .truncatedEscape with rxLen := 0, rxState := .idle }

/-- One input byte (43_deframer.md R170): in `Idle` R174, in `InFrame` R175 to R178, in `InEscape` R179 to R181. -/
def State.feed (s : State) (b : Byte) : State :=
  match s.rxState with
  | .idle => if b = s.cfg.params.soh then { s with rxState := .inFrame, rxLen := 0 } else s
  | .inFrame =>
    if b = s.cfg.params.soh then s.restart
    else if b = s.cfg.params.eot then s.endFrame
    else if b = s.cfg.params.dle then { s with rxState := .inEscape }
    else s.append b
  | .inEscape =>
    if b = s.cfg.params.soh then s.restart
    else if b = s.cfg.params.eot then s.truncated
    else { s with rxState := .inFrame }.append (escapeXor b)

/-- RXFEED (43_deframer.md R173): one deframer step; `STATUS` is never written. -/
def execRxFeed (b : Byte) (s : State) : Host.Outcome State Fault Refusal :=
  .next (s.feed b)

/-- RX_RESET (43_deframer.md R182): `RXBUF` is not cleared. -/
def execRxReset (s : State) : Host.Outcome State Fault Refusal :=
  .next { s with rxState := .idle, rxLen := 0, evt := .none, seq := 0 }.succeed

end Sys2Proof.Machine
end

