-- ==== Sys2Proof/Machine/HostAccess.lean ====
section
/-! DEFINITION. NOP, the host's register and window accesses, and the command write (44_host_access.md). -/

namespace Sys2Proof.Machine

/-- NOP (44_host_access.md R211). -/
def execNop (s : State) : Host.Outcome State Fault Refusal :=
  .next s.succeed

/-! ## Registers -/

/-- The value a read of a register returns (10_state.md R24 to R39): write-only registers and reserved fields read 0
(R23). -/
def State.regValue (s : State) : Reg → Word
  | .CMD => 0
  | .STATUS => s.statusWord
  | .SRC => s.src.setWidth 32
  | .LEN => s.len.setWidth 32
  | .DST => s.dst.setWidth 32
  | .CAP => s.cap.setWidth 32
  | .RESULT => s.result
  | .CRC => s.crc.setWidth 32
  | .SEED => s.seed.setWidth 32
  | .CANID => s.canid
  | .IDF => 0#8 ++ s.idCommand ++ s.idMode ++ s.idGroup
  | .SENDER => s.sender.setWidth 32
  | .RXDATA => 0
  | .RXSTAT => s.rxstatWord
  | .SENT => 0#8 ++ s.cfg.params.dle ++ s.cfg.params.eot ++ s.cfg.params.soh
  | .SIZES => BitVec.ofNat 16 s.cfg.params.rxMax ++ BitVec.ofNat 16 s.cfg.params.bufSize

/-- REG_READ (44_host_access.md R201): no side effect. -/
def execRegRead (r : Reg) (s : State) : Host.Outcome State Fault Refusal :=
  .next (s.respond (.word (s.regValue r)))

/-- REG_WRITE's effect on a register that stores (44_host_access.md R202): every non-reserved field takes its bits of the
value; read-only registers ignore the write (10_state.md R23). `CMD` and `RXDATA` store nothing. -/
def State.regStore (s : State) (v : Word) : Reg → State
  | .CMD => s
  | .STATUS => s
  | .SRC => { s with src := v.extractLsb' 0 16 }
  | .LEN => { s with len := v.extractLsb' 0 16 }
  | .DST => { s with dst := v.extractLsb' 0 16 }
  | .CAP => { s with cap := v.extractLsb' 0 16 }
  | .RESULT => s
  | .CRC => { s with crc := v.extractLsb' 0 8 }
  | .SEED => { s with seed := v.extractLsb' 0 8 }
  | .CANID => { s with canid := v }
  | .IDF => { s with idGroup := v.extractLsb' 0 8, idMode := v.extractLsb' 8 8, idCommand := v.extractLsb' 16 8 }
  | .SENDER => { s with sender := v.extractLsb' 0 16 }
  | .RXDATA => s
  | .RXSTAT => s
  | .SENT => s
  | .SIZES => s

/-! ## Commands -/

/-- Run a decoded command. -/
def runCommand (c : Command) (s : State) : Host.Outcome State Fault Refusal :=
  match c with
  | .nop => execNop s
  | .crcInit => execCrcInit s
  | .crcByte imm8 => execCrcByte imm8 s
  | .crcRange => execCrcRange s
  | .idEncode => execIdEncode s
  | .idDecode => execIdDecode s
  | .escSize => execEscSize s
  | .escape => execEscape s
  | .unescape => execUnescape s
  | .frame => execFrame s
  | .rxReset => execRxReset s

/-- CMD_WRITE (44_host_access.md R203, 30_encoding.md R80): the command the word encodes, or `IllegalCommand` (R212). -/
def execCmdWrite (w : Word) (s : State) : Host.Outcome State Fault Refusal :=
  match decodeCommand w with
  | .ok c => runCommand c s
  | .error _ => .next (s.raise .illegalCommand)

/-- REG_WRITE (44_host_access.md R202). DESIGN CHOICE (log 11): the table excludes `CMD` and `RXDATA` from this row, and no
transaction decodes to such a term; it has the effect of the bus write at that offset. -/
def execRegWrite (r : Reg) (v : Word) (s : State) : Host.Outcome State Fault Refusal :=
  match r with
  | .CMD => execCmdWrite v s
  | .RXDATA => execRxFeed (v.extractLsb' 0 8) s
  | r => .next (s.regStore v r)

/-! ## Windows -/

/-- BUF_READB (44_host_access.md R204). -/
def execBufReadB (a : BitVec 14) (s : State) : Host.Outcome State Fault Refusal :=
  byteWindow s.cfg.params.bufSize a ((s.drawn 1).respond (.byte (s.buf.byteAt a.toNat s.draws)))

/-- BUF_READW (44_host_access.md R205). -/
def execBufReadW (a : BitVec 14) (s : State) : Host.Outcome State Fault Refusal :=
  wordWindow s.cfg.params.bufSize a ((s.drawn 4).respond (.word (s.buf.wordAt a.toNat s.draws)))

/-- BUF_WRITEB (44_host_access.md R206). -/
def execBufWriteB (a : BitVec 14) (v : Byte) (s : State) : Host.Outcome State Fault Refusal :=
  byteWindow s.cfg.params.bufSize a { s with buf := s.buf.write a.toNat v }

/-- BUF_WRITEW (44_host_access.md R207). -/
def execBufWriteW (a : BitVec 14) (v : Word) (s : State) : Host.Outcome State Fault Refusal :=
  wordWindow s.cfg.params.bufSize a { s with buf := s.buf.writeAll a.toNat (bytesOfWord v) }

/-- RXBUF_READB (44_host_access.md R208). -/
def execRxbufReadB (a : BitVec 14) (s : State) : Host.Outcome State Fault Refusal :=
  byteWindow s.cfg.params.rxMax a ((s.drawn 1).respond (.byte (s.rxbuf.byteAt a.toNat s.draws)))

/-- RXBUF_READW (44_host_access.md R209). -/
def execRxbufReadW (a : BitVec 14) (s : State) : Host.Outcome State Fault Refusal :=
  wordWindow s.cfg.params.rxMax a ((s.drawn 4).respond (.word (s.rxbuf.wordAt a.toNat s.draws)))

end Sys2Proof.Machine
end

