-- ==== Sys2Proof/Machine/Dispatch.lean ====
section
/-! DEFINITION. The meaning of every instruction: one arm for each row of opcode_table.json. -/

namespace Sys2Proof.Machine

def exec (i : Instr) (s : State) : Host.Outcome State Fault Refusal :=
  match i with
  | .nop => Sys2Proof.Machine.execNop s
  | .crcInit => Sys2Proof.Machine.execCrcInit s
  | .crcByte imm8 => Sys2Proof.Machine.execCrcByte imm8 s
  | .crcRange => Sys2Proof.Machine.execCrcRange s
  | .idEncode => Sys2Proof.Machine.execIdEncode s
  | .idDecode => Sys2Proof.Machine.execIdDecode s
  | .escSize => Sys2Proof.Machine.execEscSize s
  | .escape => Sys2Proof.Machine.execEscape s
  | .unescape => Sys2Proof.Machine.execUnescape s
  | .frame => Sys2Proof.Machine.execFrame s
  | .rxReset => Sys2Proof.Machine.execRxReset s
  | .regRead r => Sys2Proof.Machine.execRegRead r s
  | .regWrite r v => Sys2Proof.Machine.execRegWrite r v s
  | .cmdWrite w => Sys2Proof.Machine.execCmdWrite w s
  | .rxFeed b => Sys2Proof.Machine.execRxFeed b s
  | .bufReadB a => Sys2Proof.Machine.execBufReadB a s
  | .bufReadW a => Sys2Proof.Machine.execBufReadW a s
  | .bufWriteB a v => Sys2Proof.Machine.execBufWriteB a v s
  | .bufWriteW a v => Sys2Proof.Machine.execBufWriteW a v s
  | .rxbufReadB a => Sys2Proof.Machine.execRxbufReadB a s
  | .rxbufReadW a => Sys2Proof.Machine.execRxbufReadW a s

end Sys2Proof.Machine
end

