-- ==== Sys2Proof/Machine/Fetch.lean ====
section
/-! DEFINITION. Taking the host's next transaction: its instruction, or the bus fault it is (44_host_access.md R200, R210). -/

namespace Sys2Proof.Machine

/-- The bus fault that a refused transaction is (44_host_access.md R210). -/
def faultOf : BusError → Fault
  | .halfWidth => .halfWidth
  | .unmapped => .unmapped
  | .byteToRegs => .byteToRegs
  | .misaligned => .misaligned
  | .rxbufWrite => .rxbufWrite

/-- The state in which the next event's effect takes place: the event is no longer pending, and the bus has answered that
the transaction completes (a read overwrites the answer with its value; log 6). -/
def State.accept (s : State) (rest : List HostEvent) : State := { s with host := rest, resp := .done }

/-- Put an input where `step` takes its next event: at the head of the pending events (log 4). -/
def State.offer (s : State) (p : Packet) : State := { s with host := .bus p.transaction :: s.host }

end Sys2Proof.Machine
end

