-- ==== Sys2Proof/Machine/Step.lean ====
section
/-! DEFINITION. One step: the host's next event (20_memory.md R67, 44_host_access.md R200). -/

namespace Sys2Proof.Machine

/-- One step of the machine. With no pending event nothing happens (00_scope.md R13, log 4). A reset pulse puts the reset
values in place (70_reset_and_hazards.md R250). A transaction runs the bus operation it decodes to, or is a bus fault
(44_host_access.md R210). -/
def step (s : State) : Host.Outcome State Fault Refusal :=
  match s.host with
  | [] => .next s
  | .reset :: rest => .next (s.accept rest).applyReset
  | .bus t :: rest =>
    match decodeTransaction t with
    | .ok i => exec i (s.accept rest)
    | .error e => .fault (faultOf e)

/-- `s` with the input whose bits are `w` as the host's next transaction: a row of 32 bits is written to `CMD`, a row of 16
bits is a bus transaction whose other bits are 0 (log 4, log 8). -/
def State.withFetchWord (s : State) (nbits w : Nat) : State := s.offer (tablePacket nbits w)

end Sys2Proof.Machine
end

