-- ==== Sys2Proof/Machine/Assembler.lean ====
section
/-! DEFINITION. The assembly lines of host programs and their expansions into bus transactions (30_encoding.md R86, R87). -/

namespace Sys2Proof.Machine

/-- One line of a host program (30_encoding.md R86); `a` is the address after `BUF+` or `RXBUF+`. -/
inductive Asm where
  | wr (r : Reg) (v : Word)
  | rd (r : Reg)
  | wrbBuf (a : BitVec 14) (v : Byte)
  | wrwBuf (a : BitVec 14) (v : Word)
  | rdbBuf (a : BitVec 14)
  | rdwBuf (a : BitVec 14)
  | rdbRxbuf (a : BitVec 14)
  | rdwRxbuf (a : BitVec 14)
  | nop | crcInit | crcRange | idEnc | idDec | escSize | esc | unesc | frame | rxReset
  | crcByte (v : Byte)
  | feed (v : Word)
deriving DecidableEq, Repr

/-- `wr CMD, w`. -/
def wrCmd (w : Word) : Transaction := ⟨.write, .word, Reg.offset .CMD, w⟩

/-- The bus transaction of a line (30_encoding.md R86). -/
def Asm.transaction : Asm → Transaction
  | .wr r v => ⟨.write, .word, r.offset, v⟩
  | .rd r => ⟨.read, .word, r.offset, 0⟩
  | .wrbBuf a v => ⟨.write, .byte, 0x4000 + a.setWidth 16, v.setWidth 32⟩
  | .wrwBuf a v => ⟨.write, .word, 0x4000 + a.setWidth 16, v⟩
  | .rdbBuf a => ⟨.read, .byte, 0x4000 + a.setWidth 16, 0⟩
  | .rdwBuf a => ⟨.read, .word, 0x4000 + a.setWidth 16, 0⟩
  | .rdbRxbuf a => ⟨.read, .byte, 0x8000 + a.setWidth 16, 0⟩
  | .rdwRxbuf a => ⟨.read, .word, 0x8000 + a.setWidth 16, 0⟩
  | .nop => wrCmd 0x00
  | .crcInit => wrCmd 0x01
  | .crcRange => wrCmd 0x03
  | .idEnc => wrCmd 0x10
  | .idDec => wrCmd 0x11
  | .escSize => wrCmd 0x20
  | .esc => wrCmd 0x21
  | .unesc => wrCmd 0x22
  | .frame => wrCmd 0x23
  | .rxReset => wrCmd 0x30
  | .crcByte v => wrCmd ((v.setWidth 32 <<< 8) ||| 0x02)
  | .feed v => ⟨.write, .word, Reg.offset .RXDATA, v⟩

/-- The pseudo-instructions (30_encoding.md R87). -/
inductive Pseudo where
  | seed (v : Word)
  | crcSeq (bytes : List Byte)
  | feedSeq (bytes : List Byte)
  | ld (a : Nat) (bytes : List Byte)
  | range (s n d c : Word)
  | idf (g m c : Byte) (a : Half)
deriving DecidableEq, Repr

/-- The lines that `ld BUF+a, b0, ..., bk` stands for (30_encoding.md R87).
DESIGN CHOICE (log 15): the rule asks for a `wrb` at `BUF+(a+k)`, and no such line exists where `a + k >= 0x4000`; there the
address is taken modulo 0x4000, so the line writes from `BUF+0` again. -/
def ldLines : Nat → List Byte → List Asm
  | _, [] => []
  | a, b :: bs => .wrbBuf (BitVec.ofNat 14 a) b :: ldLines (a + 1) bs

/-- The expansion of a pseudo-instruction (30_encoding.md R87). -/
def Pseudo.lines : Pseudo → List Asm
  | .seed v => [.wr .SEED v, .crcInit]
  | .crcSeq bytes => bytes.map .crcByte
  | .feedSeq bytes => bytes.map fun b => .feed (b.setWidth 32)
  | .ld a bytes => ldLines a bytes
  | .range s n d c => [.wr .SRC s, .wr .LEN n, .wr .DST d, .wr .CAP c]
  | .idf g m c a =>
    [.wr .IDF ((c.setWidth 32 <<< 16) ||| (m.setWidth 32 <<< 8) ||| g.setWidth 32), .wr .SENDER (a.setWidth 32)]

/-- `s` with the lines of a host program pending after what is pending already (44_host_access.md R200, log 4). -/
def State.load (s : State) (program : List Asm) : State :=
  { s with host := s.host ++ program.map fun line => .bus line.transaction }

end Sys2Proof.Machine
end

