-- ==== Sys2Proof/Safety.lean ====
section
/-! DEFINITION. The terms that claims use: the accesses the bus accepts, the invariant of the state, the effect of a command word, the error a command reports. -/

namespace Sys2Proof

/-- The `n` bytes at `offset` lie inside the `BUF` window (20_memory.md R61). -/
abbrev InBufWindow (c : Config) (offset : Half) (n : Nat) : Prop :=
  0x4000 ≤ offset.toNat ∧ offset.toNat + n ≤ 0x4000 + c.params.bufSize

/-- The `n` bytes at `offset` lie inside the `RXBUF` window (20_memory.md R61). -/
abbrev InRxbufWindow (c : Config) (offset : Half) (n : Nat) : Prop :=
  0x8000 ≤ offset.toNat ∧ offset.toNat + n ≤ 0x8000 + c.params.rxMax

/-- The accesses that are no bus fault, as 20_memory.md R64 words them: a 32-bit register access at a multiple of 4, a word
access to a window at a multiple of 4 and wholly inside, a byte access inside a window; `RXBUF` is read only (R61). -/
def Transaction.Legal (c : Config) (t : Transaction) : Prop :=
  match t.width with
  | .half => False
  | .byte => InBufWindow c t.offset 1 ∨ (t.dir = .read ∧ InRxbufWindow c t.offset 1)
  | .word =>
    t.offset.toNat % 4 = 0 ∧
      (t.offset.toNat < 0x40 ∨ InBufWindow c t.offset 4 ∨ (t.dir = .read ∧ InRxbufWindow c t.offset 4))

namespace Machine

/-- A reset pulse, or a transaction that is no bus fault. -/
def HostEvent.Legal (c : Config) : HostEvent → Prop
  | .reset => True
  | .bus t => t.Legal c

/-- The transaction that feeds byte `b` to the deframer: `MemWrite(0x0030, 4, b)` (43_deframer.md R173). -/
def feedEvent (b : Byte) : HostEvent := .bus ⟨.write, .word, 0x0030, b.setWidth 32⟩

/-- `bytes` are what reading the `n` bytes of `m` from address `a` on gives, the first with the draw number `d`: the byte
that the address holds, or, where it holds none, the free byte of its draw (70_reset_and_hazards.md R251; log 3). -/
abbrev Reads (m : Memory) (a n d : Nat) (bytes : List Byte) : Prop :=
  bytes.length = n ∧
    ∀ k, k < n → bytes[k]? = some ((m.read? (a + k)).getD (Config.freeByte (d + k)))

/-- `raw` are the bytes `BUF[SRC .. SRC+LEN)` (20_memory.md R70). -/
abbrev State.ReadsSource (s : State) (raw : List Byte) : Prop := Reads s.buf s.src.toNat s.len.toNat s.draws raw

/-- What holds of every state that a run reaches. -/
structure State.Inv (s : State) : Prop where
  /-- `BUF` is in canonical form. -/
  bufWf : s.buf.wf
  /-- `RXBUF` is in canonical form. -/
  rxbufWf : s.rxbuf.wf
  /-- `BUF` has `BUF_SIZE` bytes (10_state.md R45). -/
  bufInside : ∀ c ∈ s.buf, c.1 < s.cfg.params.bufSize
  /-- `RXBUF` has `RX_MAX` bytes (10_state.md R46). -/
  rxbufInside : ∀ c ∈ s.rxbuf, c.1 < s.cfg.params.rxMax
  /-- `0 <= RXLEN <= RX_MAX` (10_state.md R42). -/
  rxLenBound : s.rxLen.toNat ≤ s.cfg.params.rxMax
  /-- The bytes that `RXLEN` counts have been written (10_state.md R42). -/
  rxWritten : ∀ a, a < s.rxLen.toNat → (s.rxbuf.read? a).isSome
  /-- Never surfaced: in `Idle`, `RXLEN` is not 0 only after FRAME_OK (43_deframer.md R186). -/
  surfaced : s.rxState = .idle → s.rxLen ≠ 0 → s.evt = .frameOk
  /-- `EVT` is NONE only until the first event (10_state.md R43). -/
  noEvent : s.evt = .none → s.seq = 0
  /-- Values of `RESULT` never exceed 2 * 16384 + 2 (10_state.md R30). -/
  resultBound : s.result.toNat ≤ 2 * 16384 + 2

/-- The command of opcode `op` takes `s` to `t imm8`, as an instruction and as a word written to `CMD` with any `IMM8`; the
same opcode with `RSVD != 0` is illegal and changes `STATUS.ERR` only (30_encoding.md R80, 44_host_access.md R212). -/
def CommandRuns (op : Byte) (i : Byte → Instr) (s : State) (t : Byte → State) : Prop :=
  (∀ imm8 : Byte, exec (i imm8) s = .next (t imm8))
    ∧ (∀ imm8 : Byte, exec (.cmdWrite (0#16 ++ imm8 ++ op)) s = .next (t imm8))
    ∧ ∀ (rsvd : Half) (imm8 : Byte), rsvd ≠ 0 →
        exec (.cmdWrite (rsvd ++ imm8 ++ op)) s = .next { s with err := .illegalCommand }

/-- `CommandRuns` of a command that ignores `IMM8`. -/
abbrev CommandTakes (op : Byte) (i : Instr) (s t : State) : Prop := CommandRuns op (fun _ => i) s (fun _ => t)

/-- `t` is `s` after a command has stored `out` from `DST` on and reported its length: the bytes of `BUF` at `DST` to
`DST + n - 1` are `out`, every other byte is as it was, and only `RESULT` and `STATUS.ERR` are written besides. -/
def StoredOutput (s t : State) (out : List Byte) : Prop :=
  t = { s with buf := t.buf, result := BitVec.ofNat 32 out.length, err := .ok, draws := s.draws + s.len.toNat }
    ∧ ∀ a : Nat, t.buf.read? a =
        if s.dst.toNat ≤ a ∧ a < s.dst.toNat + out.length then out[a - s.dst.toNat]? else s.buf.read? a

/-- The failure of a command that had read its source range: `STATUS.ERR` only (60_exceptions.md R222). -/
def FailedAfterRead (s : State) (e : ErrCode) : State := { s with err := e, draws := s.draws + s.len.toNat }

/-- The failure of a command before it read anything: `STATUS.ERR` only (60_exceptions.md R222). -/
def Failed (s : State) (e : ErrCode) : State := { s with err := e }

/-- The error that the word `w` written to `CMD` reports when the source range reads as `raw`, in the order of checks of
60_exceptions.md R223. -/
def expectedError (s : State) (w : Word) (raw : List Byte) : ErrCode :=
  let op := (w &&& 0xFF).toNat
  let source := op = 0x03 ∨ op = 0x20 ∨ op = 0x21 ∨ op = 0x22 ∨ op = 0x23
  let writes := op = 0x21 ∨ op = 0x22 ∨ op = 0x23
  if w >>> 16 ≠ 0 ∨ op ∉ [0x00, 0x01, 0x02, 0x03, 0x10, 0x11, 0x20, 0x21, 0x22, 0x23, 0x30] then .illegalCommand
  else if (source ∧ ¬ s.SrcOK) ∨ (writes ∧ ¬ s.DstOK) then .rangeError
  else if writes ∧ ¬ s.Disjoint then .rangeError
  else if op = 0x10 ∧ ¬ (s.idGroup ∈ s.cfg.params.groups ∧ s.idMode ∈ s.cfg.params.modes) then .unknownEncoding
  else if op = 0x11 ∧ ∀ r ∈ s.cfg.params.packRows, r.code ≠ (s.canid >>> 16).setWidth 16 then .unknownEncoding
  else if op = 0x22 ∧ unescape s.cfg.params raw = none then .truncatedEscape
  else if op = 0x21 ∧ s.cap.toNat < (escape s.cfg.params raw).length then .bufferTooSmall
  else if op = 0x22 ∧ s.cap.toNat < ((unescape s.cfg.params raw).getD []).length then .bufferTooSmall
  else if op = 0x23 ∧ s.cap.toNat < (frame s.cfg.params s.seed raw).length then .bufferTooSmall
  else .ok

/-- The bus offset of each register, as the table of 10_state.md R20 lists it. -/
def busOffset : Reg → Half
  | .CMD => 0x00
  | .STATUS => 0x04
  | .SRC => 0x08
  | .LEN => 0x0C
  | .DST => 0x10
  | .CAP => 0x14
  | .RESULT => 0x18
  | .CRC => 0x1C
  | .SEED => 0x20
  | .CANID => 0x24
  | .IDF => 0x28
  | .SENDER => 0x2C
  | .RXDATA => 0x30
  | .RXSTAT => 0x34
  | .SENT => 0x38
  | .SIZES => 0x3C

/-- The code of each error, as the table of 60_exceptions.md R220 lists it. -/
def errNumber : ErrCode → Word
  | .ok => 0
  | .unknownEncoding => 1
  | .bufferTooSmall => 2
  | .truncatedEscape => 3
  | .rangeError => 4
  | .illegalCommand => 5

/-- The code of each event, as the table of 60_exceptions.md R221 lists it. -/
def evtNumber : RxEvent → Word
  | .none => 0
  | .frameOk => 1
  | .checksumMismatch => 2
  | .truncatedEscape => 3
  | .overflow => 4
  | .aborted => 5

/-- The encoding of each deframer state (10_state.md R41). -/
def stateNumber : RxState → Word
  | .idle => 0
  | .inFrame => 1
  | .inEscape => 2

/-- The bits of a register that a host write stores (10_state.md R26 to R35); none in a read-only or write-only register. -/
def writableMask : Reg → Word
  | .CMD => 0
  | .STATUS => 0
  | .SRC => 0xFFFF
  | .LEN => 0xFFFF
  | .DST => 0xFFFF
  | .CAP => 0xFFFF
  | .RESULT => 0
  | .CRC => 0xFF
  | .SEED => 0xFF
  | .CANID => 0xFFFFFFFF
  | .IDF => 0xFFFFFF
  | .SENDER => 0xFFFF
  | .RXDATA => 0
  | .RXSTAT => 0
  | .SENT => 0
  | .SIZES => 0

/-- The value of each register, field by field as 10_state.md R24 to R39 give it: write-only registers and reserved fields
are 0 (R23); the codes as 60_exceptions.md R220, R221 and 10_state.md R41 number them. -/
def specRegValue (s : State) : Reg → Word
  | .CMD => 0
  | .STATUS => errNumber s.err
  | .SRC => s.src.setWidth 32
  | .LEN => s.len.setWidth 32
  | .DST => s.dst.setWidth 32
  | .CAP => s.cap.setWidth 32
  | .RESULT => s.result
  | .CRC => s.crc.setWidth 32
  | .SEED => s.seed.setWidth 32
  | .CANID => s.canid
  | .IDF => (s.idCommand.setWidth 32 <<< 16) ||| (s.idMode.setWidth 32 <<< 8) ||| s.idGroup.setWidth 32
  | .SENDER => s.sender.setWidth 32
  | .RXDATA => 0
  | .RXSTAT =>
    (s.rxLen.setWidth 32 <<< 16) ||| (s.seq.setWidth 32 <<< 8) ||| (evtNumber s.evt <<< 4) ||| stateNumber s.rxState
  | .SENT =>
    (s.cfg.params.dle.setWidth 32 <<< 16) ||| (s.cfg.params.eot.setWidth 32 <<< 8) ||| s.cfg.params.soh.setWidth 32
  | .SIZES => BitVec.ofNat 32 (s.cfg.params.rxMax * 65536 + s.cfg.params.bufSize)

/-- `i` appends the received byte `v` and leaves the deframer in `InFrame`, or overflows at `RX_MAX`
(43_deframer.md R172, R178, R181). -/
def AppendsByte (i : Instr) (s : State) (v : Byte) : Prop :=
  (s.rxLen.toNat = s.cfg.params.rxMax →
      exec i s = .next { s with rxState := .idle, rxLen := 0, evt := .overflow, seq := s.seq + 1 })
    ∧ (s.rxLen.toNat ≠ s.cfg.params.rxMax →
      ∃ m : Memory, exec i s = .next { s with rxbuf := m, rxLen := s.rxLen + 1, rxState := .inFrame }
        ∧ ∀ a : Nat, m.read? a = if a = s.rxLen.toNat then some v else s.rxbuf.read? a)

/-- `s` with the deframer's state of `d`: `RXSTATE`, `RXLEN`, `RXBUF`, `EVT`, `SEQ` (10_state.md R40). -/
def State.withDeframerOf (s d : State) : State :=
  { s with rxState := d.rxState, rxLen := d.rxLen, rxbuf := d.rxbuf, evt := d.evt, seq := d.seq }

/-- `s` with everything of `d` that is not the deframer's, not a parameter, not `SEED` and not the count of draws. -/
def State.withCommandsOf (s d : State) : State :=
  { d with cfg := s.cfg, seed := s.seed, rxState := s.rxState, rxLen := s.rxLen, rxbuf := s.rxbuf, evt := s.evt,
           seq := s.seq, draws := s.draws }

/-- The transactions that are commands: the rows of format CMD32 and CMD_WRITE (30_encoding.md R82, R83). -/
def isCommand : Instr → Bool
  | .nop | .crcInit | .crcByte _ | .crcRange | .idEncode | .idDecode | .escSize | .escape | .unescape | .frame
  | .rxReset | .cmdWrite _ => true
  | .regRead _ | .regWrite _ _ | .rxFeed _ | .bufReadB _ | .bufReadW _ | .bufWriteB _ _ | .bufWriteW _ _
  | .rxbufReadB _ | .rxbufReadW _ => false

end Machine
end Sys2Proof
end

