-- ==== Sys2Proof/Certificates/Slice0/Obligations.lean ====
section
/-! DEFINITION. The statements for the provers, in the order of OBLIGATIONS.json. -/

section Statements

open Sys2Proof Sys2Proof.Machine

/-! ## Encoding and decoding -/

/-- 30_encoding.md R82, R83: decoding the encoding of an instruction gives it back, at every value of every operand that
the row admits. -/
def Obligations.DecodeEncode : Prop :=
  ∀ i : Instr, i.patternOk = true → decode (encode i) = .ok i

/-- 30_encoding.md R82: a word is a command exactly when its bits under the mask are the row's match. -/
def Obligations.OpcodeMap : Prop :=
  ∀ (w : Word) (c : Command), decodeCommand w = .ok c ↔
    match c with
    | .nop => w &&& 0xFFFF00FF = 0x00000000
    | .crcInit => w &&& 0xFFFF00FF = 0x00000001
    | .crcByte imm8 => w &&& 0xFFFF00FF = 0x00000002 ∧ imm8 = (w >>> 8).setWidth 8
    | .crcRange => w &&& 0xFFFF00FF = 0x00000003
    | .idEncode => w &&& 0xFFFF00FF = 0x00000010
    | .idDecode => w &&& 0xFFFF00FF = 0x00000011
    | .escSize => w &&& 0xFFFF00FF = 0x00000020
    | .escape => w &&& 0xFFFF00FF = 0x00000021
    | .unescape => w &&& 0xFFFF00FF = 0x00000022
    | .frame => w &&& 0xFFFF00FF = 0x00000023
    | .rxReset => w &&& 0xFFFF00FF = 0x00000030

/-- 30_encoding.md R84, 44_host_access.md R212: every other word raises IllegalCommand, code 5, and changes nothing else. -/
def Obligations.IllegalCommandWords : Prop :=
  ErrCode.illegalCommand.code = 5 ∧
  ∀ (w : Word) (s : State),
    ((w >>> 16 ≠ 0 ∨
        w &&& 0xFF ∉ ([0x00, 0x01, 0x02, 0x03, 0x10, 0x11, 0x20, 0x21, 0x22, 0x23, 0x30] : List Word)) ↔
      ∀ c, decodeCommand w ≠ .ok c) ∧
    ((∀ c, decodeCommand w ≠ .ok c) → exec (.cmdWrite w) s = .next { s with err := .illegalCommand })

/-- 44_host_access.md R203: the 32-bit write of `w` at offset 0x0000 is CMD_WRITE; it runs the command that `w` encodes,
always completes, and stores nothing of its own. -/
def Obligations.CommandWrite : Prop :=
  ∀ (w : Word) (s : State),
    decodeTransaction ⟨.write, .word, 0x0000, w⟩ = .ok (.cmdWrite w) ∧
    (∃ t, exec (.cmdWrite w) s = .next t) ∧
    (∀ c, decodeCommand w = .ok c → exec (.cmdWrite w) s = exec c.toInstr s) ∧
    (∀ e, decodeCommand w = .error e → exec (.cmdWrite w) s = .next { s with err := .illegalCommand })

/-- 30_encoding.md R83, 10_state.md R20: the bus operation of each offset pattern, direction and width. -/
def Obligations.BusRows : Prop :=
  ∀ (r : Reg) (a : BitVec 14) (v : Word),
    decodeTransaction ⟨.read, .word, busOffset r, v⟩ = .ok (.regRead r) ∧
    (r ≠ .CMD → r ≠ .RXDATA →
      decodeTransaction ⟨.write, .word, busOffset r, v⟩ = .ok (.regWrite r v)) ∧
    decodeTransaction ⟨.write, .word, 0x0000, v⟩ = .ok (.cmdWrite v) ∧
    decodeTransaction ⟨.write, .word, 0x0030, v⟩ = .ok (.rxFeed (v.setWidth 8)) ∧
    decodeTransaction ⟨.read, .byte, 0x4000 + a.setWidth 16, v⟩ = .ok (.bufReadB a) ∧
    decodeTransaction ⟨.write, .byte, 0x4000 + a.setWidth 16, v⟩ = .ok (.bufWriteB a (v.setWidth 8)) ∧
    decodeTransaction ⟨.read, .byte, 0x8000 + a.setWidth 16, v⟩ = .ok (.rxbufReadB a) ∧
    (a.toNat % 4 = 0 →
      decodeTransaction ⟨.read, .word, 0x4000 + a.setWidth 16, v⟩ = .ok (.bufReadW a) ∧
      decodeTransaction ⟨.write, .word, 0x4000 + a.setWidth 16, v⟩ = .ok (.bufWriteW a v) ∧
      decodeTransaction ⟨.read, .word, 0x8000 + a.setWidth 16, v⟩ = .ok (.rxbufReadW a))

/-- Words written out from the spec's encodings (30_encoding.md R82, R83; examples of 40_crc.md R106, 44_host_access.md
R211, R212). A sanity statement. -/
def Obligations.DecodedWords : Prop :=
  decode (.cmd32 0x00000000) = .ok .nop ∧ decode (.cmd32 0x0000FF00) = .ok .nop ∧
  decode (.cmd32 0x00008802) = .ok (.crcByte 0x88) ∧ decode (.cmd32 0x00000011) = .ok .idDecode ∧
  decode (.cmd32 0x00000023) = .ok .frame ∧ decode (.cmd32 0x00000030) = .ok .rxReset ∧
  decode (.cmd32 0x00010001) = .error (.command (.reservedBits 1)) ∧
  decode (.cmd32 0x00000004) = .error (.command (.unlistedOpcode 4)) ∧
  decode (.bus ⟨.read, .word, 0x0038, 0⟩) = .ok (.regRead .SENT) ∧
  decode (.bus ⟨.write, .word, 0x0028, 0xAB123456⟩) = .ok (.regWrite .IDF 0xAB123456) ∧
  decode (.bus ⟨.write, .word, 0x0030, 0x00000117⟩) = .ok (.rxFeed 0x17) ∧
  decode (.bus ⟨.write, .byte, 0x4001, 0x5A⟩) = .ok (.bufWriteB 1 0x5A) ∧
  decode (.bus ⟨.read, .word, 0x80FC, 0⟩) = .ok (.rxbufReadW 252)

/-! ## Steps -/

/-- 20_memory.md R67, 44_host_access.md R200: a step runs the bus operation that the host's next transaction decodes to,
with that transaction no longer pending and the bus answering that it completes. A reset pulse puts the reset values in
place. With nothing pending, nothing changes. The list of pending events and the answer are the model's own
(log 4, log 6, log 7). -/
def Obligations.StepRunsTransaction : Prop :=
  ∀ s : State,
    (∀ t rest i, s.host = .bus t :: rest → decode (.bus t) = .ok i →
      step s = exec i { s with host := rest, resp := .done }) ∧
    (∀ rest, s.host = .reset :: rest →
      step s = .next { State.resetOf s.cfg with draws := s.draws, host := rest }) ∧
    (s.host = [] → step s = .next s)

/-- 44_host_access.md R203: a step at a command word written to `CMD` runs the command that the word decodes to. -/
def Obligations.StepRunsCommandWord : Prop :=
  ∀ (s : State) (w : Word) (rest : List HostEvent) (i : Instr),
    s.host = .bus ⟨.write, .word, 0x0000, w⟩ :: rest → decode (.cmd32 w) = .ok i →
      step s = exec i { s with host := rest, resp := .done }

/-- 20_memory.md R61, R64, 44_host_access.md R210: a transaction completes exactly when it is a 32-bit register access at
a multiple of 4, an aligned word access wholly inside a window, or a byte access inside a window, `RXBUF` being read only;
any other access is a bus fault. -/
def Obligations.BusFaults : Prop :=
  ∀ (s : State) (t : Transaction) (rest : List HostEvent), s.host = .bus t :: rest →
    (t.Legal s.cfg → ∃ s', step s = .next s') ∧ (¬ t.Legal s.cfg → ∃ f, step s = .fault f)

/-- 44_host_access.md R200, 60_exceptions.md R226, R228: a host program of accesses that are no bus faults runs to its end
from every state, one event a step, whatever errors its commands and its received bytes raise. -/
def Obligations.LegalProgramsRun : Prop :=
  ∀ s : State, (∀ e ∈ s.host, e.Legal s.cfg) →
    ∀ k : Nat, ∃ t : State, Sys2Proof.core.run k s = .next t ∧ t.host = s.host.drop k ∧ t.cfg = s.cfg

/-- 20_memory.md R67, R68: a step takes exactly the oldest pending event, and never changes a parameter. -/
def Obligations.StepTakesOneEvent : Prop :=
  ∀ s t : State, step s = .next t → t.host = s.host.tail ∧ t.cfg = s.cfg

/-- 10_state.md R37, R38: `SENT` and `SIZES` show the parameters and no step changes them. -/
def Obligations.HardwiredRegisters : Prop :=
  (∀ s : State, ∃ sent sizes : Word,
    exec (.regRead .SENT) s = .next { s with resp := .word sent } ∧
    exec (.regRead .SIZES) s = .next { s with resp := .word sizes } ∧
    sent.toNat = s.cfg.params.dle.toNat * 65536 + s.cfg.params.eot.toNat * 256 + s.cfg.params.soh.toNat ∧
    sizes.toNat = s.cfg.params.rxMax * 65536 + s.cfg.params.bufSize) ∧
  ∀ s t : State, step s = .next t →
    t.regValue .SENT = s.regValue .SENT ∧ t.regValue .SIZES = s.regValue .SIZES

/-! ## Reset and the invariant -/

/-- 70_reset_and_hazards.md R250: what every register and the deframer hold after reset, whatever the parameters, and after
a reset pulse from any state. -/
def Obligations.ResetValues : Prop :=
  (∀ c : Config,
    (State.resetOf c).regValue .CMD = 0 ∧ (State.resetOf c).regValue .RXDATA = 0 ∧
    ((State.resetOf c).regValue .SENT).toNat =
      c.params.dle.toNat * 65536 + c.params.eot.toNat * 256 + c.params.soh.toNat ∧
    ((State.resetOf c).regValue .SIZES).toNat = c.params.rxMax * 65536 + c.params.bufSize ∧
    (State.resetOf c).regValue .STATUS = 0 ∧ (State.resetOf c).regValue .SRC = 0 ∧
    (State.resetOf c).regValue .LEN = 0 ∧ (State.resetOf c).regValue .DST = 0 ∧
    (State.resetOf c).regValue .CAP = 0 ∧ (State.resetOf c).regValue .RESULT = 0 ∧
    (State.resetOf c).regValue .CRC = 0xFF ∧ (State.resetOf c).regValue .SEED = 0xFF ∧
    (State.resetOf c).regValue .CANID = 0 ∧ (State.resetOf c).regValue .IDF = 0 ∧
    (State.resetOf c).regValue .SENDER = 0 ∧ (State.resetOf c).regValue .RXSTAT = 0 ∧
    (State.resetOf c).rxState = .idle ∧ (State.resetOf c).evt = .none ∧ (State.resetOf c).seq = 0 ∧
    (State.resetOf c).rxLen = 0) ∧
  ∀ (s : State) (rest : List HostEvent), s.host = .reset :: rest →
    ∃ t, step s = .next t ∧ (∀ r, t.regValue r = (State.resetOf s.cfg).regValue r) ∧
      t.rxState = .idle ∧ t.evt = .none ∧ t.seq = 0 ∧ t.rxLen = 0 ∧
      ∀ a, t.buf.read? a = none ∧ t.rxbuf.read? a = none

/-- 70_reset_and_hazards.md R251: after reset no byte has a value; a host read of a byte without one answers the next free
byte, also inside a word, and the reads after it take other free bytes. The free bytes and their count are the model's own
(log 3). The source bytes of the commands and the bytes of a received frame are read alike, which the statements about them
say with `Reads`. -/
def Obligations.UnwrittenBytesAreFree : Prop :=
  (∀ (c : Config) (a : Nat), (State.resetOf c).buf.read? a = none ∧ (State.resetOf c).rxbuf.read? a = none) ∧
  ∀ (s : State) (a : BitVec 14),
    (a.toNat < s.cfg.params.bufSize → s.buf.read? a.toNat = none →
      exec (.bufReadB a) s = .next { s with resp := .byte (Config.freeByte s.draws), draws := s.draws + 1 }) ∧
    (a.toNat < s.cfg.params.rxMax → s.rxbuf.read? a.toNat = none →
      exec (.rxbufReadB a) s = .next { s with resp := .byte (Config.freeByte s.draws), draws := s.draws + 1 }) ∧
    (a.toNat % 4 = 0 → a.toNat + 3 < s.cfg.params.bufSize → ∃ w : Word,
      exec (.bufReadW a) s = .next { s with resp := .word w, draws := s.draws + 4 } ∧
      ∀ k, k < 4 → s.buf.read? (a.toNat + k) = none → (w >>> (8 * k)).setWidth 8 = Config.freeByte (s.draws + k)) ∧
    (a.toNat % 4 = 0 → a.toNat + 3 < s.cfg.params.rxMax → ∃ w : Word,
      exec (.rxbufReadW a) s = .next { s with resp := .word w, draws := s.draws + 4 } ∧
      ∀ k, k < 4 → s.rxbuf.read? (a.toNat + k) = none → (w >>> (8 * k)).setWidth 8 = Config.freeByte (s.draws + k))

/-- The invariant holds after reset, whatever the parameters. -/
def Obligations.InvAtReset : Prop :=
  (∀ c : Config, (State.resetOf c).Inv) ∧ State.reset.Inv

/-- Every step keeps the invariant: canonical memories inside their sizes (10_state.md R45, R46), `RXLEN` within `RX_MAX`
and counting written bytes (R42), a length shown in `Idle` only after FRAME_OK (43_deframer.md R186), `EVT` NONE only
before the first event (R43), `RESULT` within its bound (R30). -/
def Obligations.StepKeepsInv : Prop :=
  ∀ s t : State, s.Inv → step s = .next t → t.Inv

/-- 10_state.md R30: in every state of the invariant `RESULT` bits 31:17 are 0. -/
def Obligations.ResultHighBitsZero : Prop :=
  ∀ s : State, s.Inv → s.result >>> 17 = 0

/-! ## Parameters -/

/-- 00_scope.md R2: exactly `0x8C` and `0xB5` meet the source's vector, and an instance has one of them. -/
def Obligations.CrcPolynomials : Prop :=
  (∀ poly : Byte, crc8 poly 0xFF [0x88, 0x00, 0x01] = 0xCB ↔ poly = 0x8C ∨ poly = 0xB5) ∧
  ∀ c : Config, c.params.crcPoly = 0x8C ∨ c.params.crcPoly = 0xB5

/-- 42_stuffing.md R140, 00_scope.md R4: the sentinels of an instance. -/
def Obligations.SentinelSet : Prop :=
  ∀ c : Config,
    (∀ b, isSentinel c.params b ↔ b ∈ [c.params.soh, c.params.eot, c.params.dle]) ∧
    [c.params.soh, c.params.eot, c.params.dle].Nodup ∧
    (∀ b ∈ ([0x00, 0x02, 0x03, 0x04, 0x05, 0x06, 0x07, 0x08] : List Byte), ¬ isSentinel c.params b) ∧
    ∀ s, isSentinel c.params s → ¬ isSentinel c.params (s ^^^ 0x20)

/-- 00_scope.md R5, R6: `CANID_PACK` of an instance is a function of exactly the domain, and injective; the two sets of
magics are not empty. -/
def Obligations.PackIsInjectiveFunction : Prop :=
  ∀ c : Config,
    c.params.groups ≠ [] ∧ c.params.modes ≠ [] ∧
    (∀ g m b, (∃ u, canidPack c.params g m b = some u) ↔ g ∈ c.params.groups ∧ m ∈ c.params.modes) ∧
    ∀ g m b g' m' b' u, canidPack c.params g m b = some u → canidPack c.params g' m' b' = some u →
      g = g' ∧ m = m' ∧ b = b'

/-- 00_scope.md R5, R6: the type of configurations leaves no instance out: every injective layout on every pair of
non-empty sets of magics is the `CANID_PACK` of an instance (the representation is log 2). -/
def Obligations.EveryLayoutIsAnInstance : Prop :=
  ∀ (groups modes : List Byte) (f : Byte → Byte → Byte → Half),
    groups ≠ [] → modes ≠ [] → groups.Nodup → modes.Nodup →
    (∀ g ∈ groups, ∀ m ∈ modes, ∀ g' ∈ groups, ∀ m' ∈ modes, ∀ b b' : Byte,
      f g m b = f g' m' b' → g = g' ∧ m = m' ∧ b = b') →
    ∃ c : Config, c.params.groups = groups ∧ c.params.modes = modes ∧
      ∀ g ∈ groups, ∀ m ∈ modes, ∀ b, canidPack c.params g m b = some (f g m b)

/-! ## NOP and the CRC -/

/-- 44_host_access.md R211: NOP reports success and does nothing else; it clears an earlier error. -/
def Obligations.NopEffect : Prop :=
  ∀ s : State, CommandTakes 0x00 .nop s { s with err := .ok }

/-- 40_crc.md R105: CRC_INIT loads `CRC` and `RESULT` with the seed. -/
def Obligations.CrcInitEffect : Prop :=
  ∀ s : State, CommandTakes 0x01 .crcInit s { s with crc := s.seed, result := s.seed.setWidth 32, err := .ok }

/-- 40_crc.md R106: CRC_BYTE advances `CRC` by one byte, with its corner cases and its example. -/
def Obligations.CrcByteEffect : Prop :=
  (∀ s : State,
    CommandRuns 0x02 .crcByte s fun imm8 =>
      { s with crc := crc8Step s.cfg.params.crcPoly s.crc imm8,
               result := (crc8Step s.cfg.params.crcPoly s.crc imm8).setWidth 32, err := .ok }) ∧
  (∀ poly c : Byte, crc8Step poly c c = 0) ∧
  (∀ poly : Byte, crc8Step poly 0x00 0x80 = poly) ∧
  crc8Step 0x8C 0xFF 0x88 = 0x7B ∧ crc8Step 0xB5 0xFF 0x88 = 0x12

/-- 40_crc.md R107: CRC_RANGE continues from `CRC` over the source range, or raises RangeError. The count of draws is the
model's own (log 3). -/
def Obligations.CrcRangeEffect : Prop :=
  ∀ s : State,
    (s.src.toNat + s.len.toNat ≤ s.cfg.params.bufSize → ∃ (raw : List Byte) (c : Byte),
      s.ReadsSource raw ∧ c = crc8 s.cfg.params.crcPoly s.crc raw ∧
      CommandTakes 0x03 .crcRange s
        { s with crc := c, result := c.setWidth 32, err := .ok, draws := s.draws + s.len.toNat }) ∧
    (s.cfg.params.bufSize < s.src.toNat + s.len.toNat →
      CommandTakes 0x03 .crcRange s { s with err := .rangeError })

/-- 40_crc.md R102: the source's vector, with the intermediate values of both polynomials. -/
def Obligations.CrcSourceVector : Prop :=
  (∀ c : Config, crc8 c.params.crcPoly 0xFF [0x88, 0x00, 0x01] = 0xCB) ∧
  (crc8Step 0x8C 0xFF 0x88 = 0x7B ∧ crc8Step 0x8C 0x7B 0x00 = 0xD8 ∧ crc8Step 0x8C 0xD8 0x01 = 0xCB) ∧
  (crc8Step 0xB5 0xFF 0x88 = 0x12 ∧ crc8Step 0xB5 0x12 0x00 = 0xAF ∧ crc8Step 0xB5 0xAF 0x01 = 0xCB)

/-- 40_crc.md R100, R101: one step is eight shifts of `c ^ b`, each XORing the polynomial in when the bit shifted out is 1;
the CRC of a sequence folds the step from the seed on, first byte first. -/
def Obligations.CrcStepAndSequence : Prop :=
  ∀ (poly seed c b : Byte) (s t : List Byte),
    (∀ shift : Byte → Byte, (∀ x, shift x = if x &&& 0x01 = 0x01 then (x >>> 1) ^^^ poly else x >>> 1) →
      crc8Step poly c b = shift (shift (shift (shift (shift (shift (shift (shift (c ^^^ b))))))))) ∧
    crc8 poly seed [] = seed ∧ crc8 poly seed (b :: s) = crc8 poly (crc8Step poly seed b) s ∧
    crc8 poly seed (s ++ t) = crc8 poly (crc8 poly seed s) t

/-- 40_crc.md R103: the laws of the step, for every polynomial. -/
def Obligations.CrcLaws : Prop :=
  ∀ (poly c b c' b' : Byte) (n : Nat),
    crc8Step poly c b = crc8Step poly (c ^^^ b) 0x00 ∧
    crc8Step poly c c = 0x00 ∧
    crc8Step poly c b ^^^ crc8Step poly c' b' = crc8Step poly (c ^^^ c') (b ^^^ b') ∧
    crc8 poly 0x00 (List.replicate n 0x00) = 0x00 ∧
    crc8Step poly 0x00 0x80 = poly

/-- 40_crc.md R104: the residue, and that a last byte leaves residue 0 only when it is the checksum. -/
def Obligations.CrcResidue : Prop :=
  (∀ (poly seed : Byte) (p : List Byte), crc8 poly seed (p ++ [crc8 poly seed p]) = 0x00) ∧
  (∀ (c : Config) (seed b : Byte) (p : List Byte),
    crc8 c.params.crcPoly seed (p ++ [b]) = 0x00 ↔ b = crc8 c.params.crcPoly seed p) ∧
  ∀ c : Config, crc8 c.params.crcPoly 0xFF [0x88, 0x00, 0x01, 0xCB] = 0x00

/-- 40_crc.md R108: a host write of `CRC` is a write of `SEED` and CRC_INIT, except that it leaves `SEED`, `RESULT` and
`STATUS`. -/
def Obligations.HostWriteOfCrc : Prop :=
  ∀ (s : State) (v : Word), ∃ s1 s2 : State,
    exec (.regWrite .SEED v) s = .next s1 ∧ exec .crcInit s1 = .next s2 ∧ s2.crc = v.setWidth 8 ∧
    exec (.regWrite .CRC v) s = .next { s2 with seed := s.seed, result := s.result, err := s.err }

/-! ## CAN identifiers -/

/-- 41_canid.md R121, R123: ID_ENCODE packs the fields, or raises UnknownEncoding for a group or mode that is no magic. -/
def Obligations.IdEncodeEffect : Prop :=
  ∀ s : State,
    (s.idGroup ∈ s.cfg.params.groups ∧ s.idMode ∈ s.cfg.params.modes → ∃ u : Half,
      canidPack s.cfg.params s.idGroup s.idMode s.idCommand = some u ∧
      CommandTakes 0x10 .idEncode s
        { s with canid := (u.setWidth 32 <<< 16) ||| s.sender.setWidth 32, err := .ok }) ∧
    (¬ (s.idGroup ∈ s.cfg.params.groups ∧ s.idMode ∈ s.cfg.params.modes) →
      CommandTakes 0x10 .idEncode s { s with err := .unknownEncoding })

/-- 41_canid.md R122, R124: ID_DECODE unpacks `CANID` when its upper half is the `CANID_PACK` of a triple of the domain,
and raises UnknownEncoding when it is of none; the lower half never causes a rejection. -/
def Obligations.IdDecodeEffect : Prop :=
  ∀ s : State,
    (∀ g m c : Byte, canidPack s.cfg.params g m c = some ((s.canid >>> 16).setWidth 16) →
      CommandTakes 0x11 .idDecode s
        { s with idGroup := g, idMode := m, idCommand := c, sender := s.canid.setWidth 16, err := .ok }) ∧
    ((∀ g m c : Byte, canidPack s.cfg.params g m c ≠ some ((s.canid >>> 16).setWidth 16)) →
      CommandTakes 0x11 .idDecode s { s with err := .unknownEncoding })

/-- 41_canid.md R126: the round-trip laws, on the functions and on the commands. -/
def Obligations.IdRoundTrip : Prop :=
  ∀ c : Config,
    (∀ g ∈ c.params.groups, ∀ m ∈ c.params.modes, ∀ (b : Byte) (a : Half), ∃ w : Word,
      canidEncode c.params g m b a = some w ∧ canidDecode c.params w = some (g, m, b, a)) ∧
    (∀ (w : Word) (g m b : Byte) (a : Half), canidDecode c.params w = some (g, m, b, a) →
      canidEncode c.params g m b a = some w) ∧
    ∀ s t : State, s.idGroup ∈ s.cfg.params.groups → s.idMode ∈ s.cfg.params.modes →
      exec .idEncode s = .next t → exec .idDecode t = .next t ∧ t.err = .ok ∧
        t.regValue .IDF = s.regValue .IDF ∧ t.sender = s.sender

/-- 41_canid.md R125: the sender is the lower half of the identifier after a successful command. -/
def Obligations.SenderIsLowerHalf : Prop :=
  ∀ s t : State, t.err = .ok →
    (exec .idEncode s = .next t → t.canid.setWidth 16 = t.sender) ∧
    (exec .idDecode s = .next t → t.sender = t.canid.setWidth 16)

/-- 41_canid.md R127: how many magics fit, and how many upper halves are rejected. -/
def Obligations.IdCapacity : Prop :=
  ∀ c : Config,
    c.params.groups.length * c.params.modes.length ≤ 256 ∧
    ((List.range 65536).filter fun n =>
        (canidDecode c.params (BitVec.ofNat 16 n ++ 0#16)).isNone).length =
      65536 - 256 * c.params.groups.length * c.params.modes.length ∧
    ∀ w w' : Word, w >>> 16 = w' >>> 16 → ((canidDecode c.params w).isNone ↔ (canidDecode c.params w').isNone)

/-! ## Byte stuffing -/

/-- 42_stuffing.md R141, R142: escape of a byte and of a sequence. -/
def Obligations.EscapeEquations : Prop :=
  ∀ (p : Params) (b : Byte) (raw : List Byte),
    (b = p.soh ∨ b = p.eot ∨ b = p.dle → escByte p b = [p.dle, b ^^^ 0x20]) ∧
    (¬ (b = p.soh ∨ b = p.eot ∨ b = p.dle) → escByte p b = [b]) ∧
    Machine.escape p [] = [] ∧
    Machine.escape p (b :: raw) = escByte p b ++ Machine.escape p raw

/-- 42_stuffing.md R144: unescape of a sequence, with the dangling escape; literal SOH and EOT are copied. -/
def Obligations.UnescapeEquations : Prop :=
  ∀ (p : Params) (b x : Byte) (e : List Byte),
    Machine.unescape p [] = some [] ∧
    Machine.unescape p [p.dle] = none ∧
    Machine.unescape p (p.dle :: x :: e) = (Machine.unescape p e).map ((x ^^^ 0x20) :: ·) ∧
    (b ≠ p.dle → Machine.unescape p (b :: e) = (Machine.unescape p e).map (b :: ·))

/-- 42_stuffing.md R143: the escaped size is the length of the escaped form, between one and two times the length. -/
def Obligations.EscapedSizeLaws : Prop :=
  ∀ (p : Params) (raw : List Byte),
    escapedSize p raw = raw.length + (raw.filter fun b => isSentinel p b).length ∧
    escapedSize p raw = (Machine.escape p raw).length ∧
    raw.length ≤ escapedSize p raw ∧ escapedSize p raw ≤ 2 * raw.length

/-- 42_stuffing.md R146: unescape inverts escape; the escaped form holds no SOH and no EOT and every DLE in it begins a
pair; a frame has one SOH, its first byte, and one EOT, its last; escape changes nothing exactly without sentinels. -/
def Obligations.StuffingLaws : Prop :=
  ∀ (c : Config) (raw : List Byte) (seed : Byte),
    Machine.unescape c.params (Machine.escape c.params raw) = some raw ∧
    (c.params.soh ∉ Machine.escape c.params raw ∧ c.params.eot ∉ Machine.escape c.params raw) ∧
    (∀ pre post, Machine.escape c.params raw = pre ++ c.params.dle :: post →
      ∃ b rest, isSentinel c.params b ∧ post = (b ^^^ 0x20) :: rest) ∧
    ((Machine.frame c.params seed raw).head? = some c.params.soh ∧
      (Machine.frame c.params seed raw).count c.params.soh = 1 ∧
      (Machine.frame c.params seed raw).getLast? = some c.params.eot ∧
      (Machine.frame c.params seed raw).count c.params.eot = 1) ∧
    (Machine.escape c.params raw = raw ↔ ∀ b ∈ raw, ¬ isSentinel c.params b)

/-- 42_stuffing.md R150: ESC_SIZE reports the escaped size of the source range, or raises RangeError; no byte of `BUF` is
written. The count of draws is the model's own (log 3). -/
def Obligations.EscSizeEffect : Prop :=
  ∀ s : State,
    (s.src.toNat + s.len.toNat ≤ s.cfg.params.bufSize → ∃ raw : List Byte, s.ReadsSource raw ∧
      CommandTakes 0x20 .escSize s
        { s with result := BitVec.ofNat 32 (escapedSize s.cfg.params raw), err := .ok,
                 draws := s.draws + s.len.toNat }) ∧
    (s.cfg.params.bufSize < s.src.toNat + s.len.toNat →
      CommandTakes 0x20 .escSize s { s with err := .rangeError })

/-- 42_stuffing.md R151: ESCAPE stores the escaped form at `DST`, or raises RangeError or BufferTooSmall and stores
nothing. The count of draws is the model's own (log 3). -/
def Obligations.EscapeEffect : Prop :=
  ∀ s : State, ∃ raw e : List Byte, s.ReadsSource raw ∧ e = Machine.escape s.cfg.params raw ∧
    (¬ (s.SrcOK ∧ s.DstOK ∧ s.Disjoint) → CommandTakes 0x21 .escape s (Failed s .rangeError)) ∧
    (s.SrcOK ∧ s.DstOK ∧ s.Disjoint → s.cap.toNat < e.length →
      CommandTakes 0x21 .escape s (FailedAfterRead s .bufferTooSmall)) ∧
    (s.SrcOK ∧ s.DstOK ∧ s.Disjoint → e.length ≤ s.cap.toNat →
      ∃ t, CommandTakes 0x21 .escape s t ∧ StoredOutput s t e)

/-- 42_stuffing.md R152: UNESCAPE stores the unescaped form at `DST`, or raises RangeError, TruncatedEscape or
BufferTooSmall, in this order, and stores nothing. The count of draws is the model's own (log 3). -/
def Obligations.UnescapeEffect : Prop :=
  ∀ s : State, ∃ (raw : List Byte) (r : Option (List Byte)),
    s.ReadsSource raw ∧ r = Machine.unescape s.cfg.params raw ∧
    (¬ (s.SrcOK ∧ s.DstOK ∧ s.Disjoint) → CommandTakes 0x22 .unescape s (Failed s .rangeError)) ∧
    (s.SrcOK ∧ s.DstOK ∧ s.Disjoint → r = none →
      CommandTakes 0x22 .unescape s (FailedAfterRead s .truncatedEscape)) ∧
    (s.SrcOK ∧ s.DstOK ∧ s.Disjoint → ∀ out, r = some out → s.cap.toNat < out.length →
      CommandTakes 0x22 .unescape s (FailedAfterRead s .bufferTooSmall)) ∧
    (s.SrcOK ∧ s.DstOK ∧ s.Disjoint → ∀ out, r = some out → out.length ≤ s.cap.toNat →
      ∃ t, CommandTakes 0x22 .unescape s t ∧ StoredOutput s t out)

/-- 42_stuffing.md R145, R153: FRAME stores the frame of the source range at `DST`, its checksum from `SEED`, or raises
RangeError or BufferTooSmall and stores nothing; `CRC` is not written. The count of draws is the model's own (log 3). -/
def Obligations.FrameEffect : Prop :=
  ∀ s : State, ∃ p f : List Byte, s.ReadsSource p ∧
    f = [s.cfg.params.soh]
        ++ Machine.escape s.cfg.params (p ++ [crc8 s.cfg.params.crcPoly s.seed p]) ++ [s.cfg.params.eot] ∧
    f.length = 2 + escapedSize s.cfg.params (p ++ [crc8 s.cfg.params.crcPoly s.seed p]) ∧
    (¬ (s.SrcOK ∧ s.DstOK ∧ s.Disjoint) → CommandTakes 0x23 .frame s (Failed s .rangeError)) ∧
    (s.SrcOK ∧ s.DstOK ∧ s.Disjoint → s.cap.toNat < f.length →
      CommandTakes 0x23 .frame s (FailedAfterRead s .bufferTooSmall)) ∧
    (s.SrcOK ∧ s.DstOK ∧ s.Disjoint → f.length ≤ s.cap.toNat →
      ∃ t, CommandTakes 0x23 .frame s t ∧ StoredOutput s t f)

/-! ## Errors -/

/-- 60_exceptions.md R223: the one error that a command word reports, in the order of checks. -/
def Obligations.OrderOfChecks : Prop :=
  ∀ (w : Word) (s : State), ∃ (raw : List Byte) (t : State),
    s.ReadsSource raw ∧ exec (.cmdWrite w) s = .next t ∧ t.err = expectedError s w raw

/-- 60_exceptions.md R222: a command that raises an error sets `STATUS.ERR` to its code and changes no other state; the
count of draws is the model's own (log 3). -/
def Obligations.FailureChangesOnlyErr : Prop :=
  ∀ (i : Instr) (s t : State), isCommand i = true → exec i s = .next t → t.err ≠ .ok →
    t = { s with err := t.err, draws := t.draws }

/-- 10_state.md R25: `STATUS.ERR` is written by every command and by no other transaction; its legal values are the codes
0 to 5 of 60_exceptions.md R220, and every other bit of `STATUS` reads 0. -/
def Obligations.ErrWrittenByCommandsOnly : Prop :=
  (∀ (i : Instr) (s : State) (e : ErrCode), isCommand i = true → exec i { s with err := e } = exec i s) ∧
  (∀ (i : Instr) (s t : State), i.patternOk = true → isCommand i = false → exec i s = .next t → t.err = s.err) ∧
  ∀ s : State, s.regValue .STATUS =
    match s.err with
    | .ok => 0
    | .unknownEncoding => 1
    | .bufferTooSmall => 2
    | .truncatedEscape => 3
    | .rangeError => 4
    | .illegalCommand => 5

/-- 10_state.md R47: a command executes the same whatever the status flags hold; `STATUS.BUSY`, bit 8, reads 0. -/
def Obligations.FlagsAreNotRead : Prop :=
  (∀ s : State, s.regValue .STATUS &&& 0x100 = 0) ∧
  ∀ (c : Command) (s : State) (e : ErrCode) (v : RxEvent) (q : Byte), ∃ t,
    exec c.toInstr s = .next t ∧
    exec c.toInstr { s with err := e, evt := v, seq := q } =
      .next (if c = .rxReset then t else { t with evt := v, seq := q })

/-! ## The deframer -/

/-- 43_deframer.md R170 to R181: one received byte. A 32-bit write at offset 0x0030 feeds its bits 7:0; the write always
completes; outside the deframer state nothing changes. The count of draws is the model's own (log 3). -/
def Obligations.RxFeedTable : Prop :=
  (∀ v : Word, decodeTransaction ⟨.write, .word, 0x0030, v⟩ = .ok (.rxFeed (v.setWidth 8))) ∧
  ∀ (s : State) (b : Byte),
    (s.rxState = .idle → exec (.rxFeed b) s =
      .next (if b = s.cfg.params.soh then { s with rxState := .inFrame, rxLen := 0 } else s)) ∧
    (s.rxState ≠ .idle → b = s.cfg.params.soh → exec (.rxFeed b) s =
      .next { s with rxState := .inFrame, rxLen := 0, evt := .aborted, seq := s.seq + 1 }) ∧
    (s.rxState = .inFrame → b = s.cfg.params.eot → ∃ bytes : List Byte,
      Reads s.rxbuf 0 s.rxLen.toNat s.draws bytes ∧ exec (.rxFeed b) s =
      .next (if 1 ≤ s.rxLen.toNat ∧
            bytes[s.rxLen.toNat - 1]? =
              some (crc8 s.cfg.params.crcPoly s.seed (bytes.take (s.rxLen.toNat - 1)))
          then { s with rxState := .idle, rxLen := s.rxLen - 1, evt := .frameOk, seq := s.seq + 1,
                        draws := s.draws + s.rxLen.toNat }
          else { s with rxState := .idle, rxLen := 0, evt := .checksumMismatch, seq := s.seq + 1,
                        draws := s.draws + s.rxLen.toNat })) ∧
    (s.rxState = .inFrame → b = s.cfg.params.dle → exec (.rxFeed b) s = .next { s with rxState := .inEscape }) ∧
    (s.rxState = .inFrame → ¬ isSentinel s.cfg.params b → AppendsByte (.rxFeed b) s b) ∧
    (s.rxState = .inEscape → b = s.cfg.params.eot → exec (.rxFeed b) s =
      .next { s with rxState := .idle, rxLen := 0, evt := .truncatedEscape, seq := s.seq + 1 }) ∧
    (s.rxState = .inEscape → b ≠ s.cfg.params.soh → b ≠ s.cfg.params.eot →
      AppendsByte (.rxFeed b) s (b ^^^ 0x20))

/-- 43_deframer.md R182: RX_RESET forces the deframer back to `Idle`; `RXSTAT` becomes 0 and `RXBUF` is not cleared. -/
def Obligations.RxResetEffect : Prop :=
  ∀ s : State, ∃ t,
    t = { s with rxState := .idle, rxLen := 0, evt := .none, seq := 0, err := .ok } ∧
    CommandTakes 0x30 .rxReset s t ∧ t.regValue .RXSTAT = 0

/-- 43_deframer.md R183: fed to the deframer from any state, the frame of a payload that fits is accepted. From `Idle`
exactly one event is posted, FRAME_OK, by the last byte; from inside a frame the first byte posts ABORTED before it. The
payload then stands in `RXBUF`, its length in `RXLEN`, and nothing outside the deframer has changed. -/
def Obligations.FrameIsAccepted : Prop :=
  ∀ (s : State) (payload : List Byte) (rest : List HostEvent),
    payload.length + 1 ≤ s.cfg.params.rxMax →
    s.host = (Machine.frame s.cfg.params s.seed payload).map feedEvent ++ rest →
    (∀ k, 1 ≤ k → k < (Machine.frame s.cfg.params s.seed payload).length → ∃ u : State,
      Sys2Proof.core.run k s = .next u ∧ u.rxState ≠ .idle ∧
      u.evt = (if s.rxState = .idle then s.evt else .aborted) ∧
      u.seq = s.seq + (if s.rxState = .idle then 0 else 1)) ∧
    ∃ t : State,
      Sys2Proof.core.run (Machine.frame s.cfg.params s.seed payload).length s = .next t ∧
      t.rxState = .idle ∧ t.evt = .frameOk ∧ t.seq = s.seq + (if s.rxState = .idle then 1 else 2) ∧
      t.rxLen.toNat = payload.length ∧ (∀ k, k < payload.length → t.rxbuf.read? k = payload[k]?) ∧
      t = { s with rxState := t.rxState, evt := t.evt, seq := t.seq, rxLen := t.rxLen, rxbuf := t.rxbuf,
                   draws := t.draws, resp := .done, host := rest }

/-- 43_deframer.md R174, R185, 70_reset_and_hazards.md R254: in `Idle` every byte up to the next SOH is dropped, so a
received payload stays as it is. -/
def Obligations.IdleDropsUntilSoh : Prop :=
  ∀ (s : State) (bytes : List Byte) (rest : List HostEvent),
    s.rxState = .idle → s.cfg.params.soh ∉ bytes → s.host = bytes.map feedEvent ++ rest →
    Sys2Proof.core.run bytes.length s =
      .next { s with host := rest, resp := if bytes = [] then s.resp else .done }

/-- 20_memory.md R74, 10_state.md R40: the commands other than RX_RESET neither read nor write the deframer's state, and
the deframer neither reads nor writes anything else but the parameters and `SEED`, which it only reads. The count of draws
is the model's own (log 3). -/
def Obligations.OnlySeedIsShared : Prop :=
  (∀ (c : Command) (s d : State), c ≠ .rxReset → ∃ t,
    exec c.toInstr s = .next t ∧ t = t.withDeframerOf s ∧
    exec c.toInstr (s.withDeframerOf d) = .next (t.withDeframerOf d)) ∧
  ∀ (b : Byte) (s d : State), ∃ t,
    exec (.rxFeed b) s = .next t ∧ t = t.withCommandsOf s ∧ t.seed = s.seed ∧ t.cfg = s.cfg ∧
    exec (.rxFeed b) (s.withCommandsOf d) = .next (t.withCommandsOf d)

/-! ## Host accesses -/

/-- 44_host_access.md R201: a register read answers the register's fields, reserved bits and write-only registers 0, and
changes nothing; a byte read there is a bus fault (its name is log 9). Offsets and codes as 10_state.md R20, R41 and
60_exceptions.md R220, R221 number them. -/
def Obligations.RegisterRead : Prop :=
  ∀ (r : Reg) (v : Word) (s : State),
    decodeTransaction ⟨.read, .word, busOffset r, v⟩ = .ok (.regRead r) ∧
    decodeTransaction ⟨.read, .byte, busOffset r, v⟩ = .error .byteToRegs ∧
    exec (.regRead r) s = .next { s with resp := .word (specRegValue s r) }

/-- 44_host_access.md R202: a register write stores the non-reserved bits in that register, which reads back as written;
a write to a read-only register has no effect; no other register changes, no command runs. -/
def Obligations.RegisterWrite : Prop :=
  ∀ (r : Reg) (v : Word) (s : State), r ≠ .CMD → r ≠ .RXDATA →
    decodeTransaction ⟨.write, .word, busOffset r, v⟩ = .ok (.regWrite r v) ∧ ∃ t,
    exec (.regWrite r v) s = .next t ∧
    (∀ r', t.regValue r' = if r' = r ∧ writableMask r ≠ 0 then v &&& writableMask r else s.regValue r') ∧
    t = { s with src := t.src, len := t.len, dst := t.dst, cap := t.cap, crc := t.crc, seed := t.seed,
                 canid := t.canid, idGroup := t.idGroup, idMode := t.idMode, idCommand := t.idCommand,
                 sender := t.sender }

/-- 44_host_access.md R204, R205: reads of the `BUF` window answer the bytes it holds, little-endian, and change nothing
(the count of draws is the model's own, log 3); outside the window and misaligned they are bus faults (R210), whose names,
and misaligned before past the window's end, are the model's own (log 9). -/
def Obligations.BufReads : Prop :=
  ∀ (a : BitVec 14) (w : Word) (s : State),
    decodeTransaction ⟨.read, .byte, 0x4000 + a.setWidth 16, w⟩ = .ok (.bufReadB a) ∧
    (a.toNat % 4 = 0 → decodeTransaction ⟨.read, .word, 0x4000 + a.setWidth 16, w⟩ = .ok (.bufReadW a)) ∧
    (a.toNat < s.cfg.params.bufSize → ∃ v : Byte,
      exec (.bufReadB a) s = .next { s with resp := .byte v, draws := s.draws + 1 } ∧
      ∀ x, s.buf.read? a.toNat = some x → v = x) ∧
    (a.toNat % 4 = 0 → a.toNat + 3 < s.cfg.params.bufSize → ∃ v : Word,
      exec (.bufReadW a) s = .next { s with resp := .word v, draws := s.draws + 4 } ∧
      ∀ k, k < 4 → ∀ x, s.buf.read? (a.toNat + k) = some x → (v >>> (8 * k)).setWidth 8 = x) ∧
    (s.cfg.params.bufSize ≤ a.toNat → exec (.bufReadB a) s = .fault .pastWindow) ∧
    (a.toNat % 4 ≠ 0 → exec (.bufReadW a) s = .fault .misaligned) ∧
    (a.toNat % 4 = 0 → s.cfg.params.bufSize ≤ a.toNat + 3 → exec (.bufReadW a) s = .fault .pastWindow)

/-- 44_host_access.md R206, R207: writes of the `BUF` window store their bytes, little-endian, and change nothing else;
outside the window and misaligned they are bus faults (R210), whose names, and misaligned before past the window's end, are
the model's own (log 9). -/
def Obligations.BufWrites : Prop :=
  ∀ (a : BitVec 14) (v : Byte) (w : Word) (s : State),
    decodeTransaction ⟨.write, .byte, 0x4000 + a.setWidth 16, w⟩ = .ok (.bufWriteB a (w.setWidth 8)) ∧
    (a.toNat % 4 = 0 → decodeTransaction ⟨.write, .word, 0x4000 + a.setWidth 16, w⟩ = .ok (.bufWriteW a w)) ∧
    (a.toNat < s.cfg.params.bufSize → ∃ m : Memory,
      exec (.bufWriteB a v) s = .next { s with buf := m } ∧
      ∀ b, m.read? b = if b = a.toNat then some v else s.buf.read? b) ∧
    (a.toNat % 4 = 0 → a.toNat + 3 < s.cfg.params.bufSize → ∃ m : Memory,
      exec (.bufWriteW a w) s = .next { s with buf := m } ∧
      ∀ b, m.read? b =
        if a.toNat ≤ b ∧ b < a.toNat + 4 then some ((w >>> (8 * (b - a.toNat))).setWidth 8) else s.buf.read? b) ∧
    (s.cfg.params.bufSize ≤ a.toNat → exec (.bufWriteB a v) s = .fault .pastWindow) ∧
    (a.toNat % 4 ≠ 0 → exec (.bufWriteW a w) s = .fault .misaligned) ∧
    (a.toNat % 4 = 0 → s.cfg.params.bufSize ≤ a.toNat + 3 → exec (.bufWriteW a w) s = .fault .pastWindow)

/-- 44_host_access.md R208, R209: reads of the `RXBUF` window, as those of `BUF`, also at and past `RXLEN` (the count of
draws is the model's own, log 3); outside the window and misaligned they are bus faults (R210), whose names, and misaligned
before past the window's end, are the model's own (log 9). -/
def Obligations.RxbufReads : Prop :=
  ∀ (a : BitVec 14) (w : Word) (s : State),
    decodeTransaction ⟨.read, .byte, 0x8000 + a.setWidth 16, w⟩ = .ok (.rxbufReadB a) ∧
    (a.toNat % 4 = 0 → decodeTransaction ⟨.read, .word, 0x8000 + a.setWidth 16, w⟩ = .ok (.rxbufReadW a)) ∧
    (a.toNat < s.cfg.params.rxMax → ∃ v : Byte,
      exec (.rxbufReadB a) s = .next { s with resp := .byte v, draws := s.draws + 1 } ∧
      ∀ x, s.rxbuf.read? a.toNat = some x → v = x) ∧
    (a.toNat % 4 = 0 → a.toNat + 3 < s.cfg.params.rxMax → ∃ v : Word,
      exec (.rxbufReadW a) s = .next { s with resp := .word v, draws := s.draws + 4 } ∧
      ∀ k, k < 4 → ∀ x, s.rxbuf.read? (a.toNat + k) = some x → (v >>> (8 * k)).setWidth 8 = x) ∧
    (s.cfg.params.rxMax ≤ a.toNat → exec (.rxbufReadB a) s = .fault .pastWindow) ∧
    (a.toNat % 4 ≠ 0 → exec (.rxbufReadW a) s = .fault .misaligned) ∧
    (a.toNat % 4 = 0 → s.cfg.params.rxMax ≤ a.toNat + 3 → exec (.rxbufReadW a) s = .fault .pastWindow)

/-- 20_memory.md R62, R68: after a word write to `BUF`, a word read there answers the word and a byte read its byte,
little-endian; after a byte write, a byte read there answers the byte and a word read of the word around it has it in its
place. The count of draws is the model's own (log 3). -/
def Obligations.BufReadAfterWrite : Prop :=
  ∀ (a : BitVec 14) (v : Word) (x : Byte) (s t : State),
    (exec (.bufWriteW a v) s = .next t →
      exec (.bufReadW a) t = .next { t with resp := .word v, draws := t.draws + 4 } ∧
      ∀ k, k < 4 → exec (.bufReadB (a + BitVec.ofNat 14 k)) t =
        .next { t with resp := .byte ((v >>> (8 * k)).setWidth 8), draws := t.draws + 1 }) ∧
    (exec (.bufWriteB a x) s = .next t →
      exec (.bufReadB a) t = .next { t with resp := .byte x, draws := t.draws + 1 } ∧
      ∀ b : BitVec 14, b.toNat % 4 = 0 → b.toNat + 3 < s.cfg.params.bufSize →
        b.toNat ≤ a.toNat → a.toNat < b.toNat + 4 → ∃ w : Word,
          exec (.bufReadW b) t = .next { t with resp := .word w, draws := t.draws + 4 } ∧
          (w >>> (8 * (a.toNat - b.toNat))).setWidth 8 = x)

/-- 10_state.md R30 to R35, R45, R46: which instructions write which register or memory. A command word written to `CMD`
is the command it decodes to (the statement CommandWrite). -/
def Obligations.WhoWritesWhat : Prop :=
  ∀ (i : Instr) (s t : State), i.patternOk = true → (∀ w, i ≠ .cmdWrite w) → exec i s = .next t →
    (t.result ≠ s.result → i = .crcInit ∨ (∃ b, i = .crcByte b) ∨ i = .crcRange ∨ i = .escSize ∨ i = .escape ∨
      i = .unescape ∨ i = .frame) ∧
    (t.crc ≠ s.crc → i = .crcInit ∨ (∃ b, i = .crcByte b) ∨ i = .crcRange ∨ ∃ v, i = .regWrite .CRC v) ∧
    (t.seed ≠ s.seed → ∃ v, i = .regWrite .SEED v) ∧
    (t.src ≠ s.src → ∃ v, i = .regWrite .SRC v) ∧ (t.len ≠ s.len → ∃ v, i = .regWrite .LEN v) ∧
    (t.dst ≠ s.dst → ∃ v, i = .regWrite .DST v) ∧ (t.cap ≠ s.cap → ∃ v, i = .regWrite .CAP v) ∧
    (t.canid ≠ s.canid → i = .idEncode ∨ ∃ v, i = .regWrite .CANID v) ∧
    (t.idGroup ≠ s.idGroup ∨ t.idMode ≠ s.idMode ∨ t.idCommand ≠ s.idCommand →
      i = .idDecode ∨ ∃ v, i = .regWrite .IDF v) ∧
    (t.sender ≠ s.sender → i = .idDecode ∨ ∃ v, i = .regWrite .SENDER v) ∧
    (t.buf ≠ s.buf → i = .escape ∨ i = .unescape ∨ i = .frame ∨ (∃ a v, i = .bufWriteB a v) ∨
      ∃ a v, i = .bufWriteW a v) ∧
    (t.rxbuf ≠ s.rxbuf → ∃ b, i = .rxFeed b) ∧
    (t.rxState ≠ s.rxState ∨ t.rxLen ≠ s.rxLen ∨ t.evt ≠ s.evt ∨ t.seq ≠ s.seq →
      i = .rxReset ∨ ∃ b, i = .rxFeed b)

/-- 30_encoding.md R87: the pseudo-instruction `seed v` run by the host. -/
def Obligations.PseudoSeed : Prop :=
  ∀ (s : State) (v : Word), s.host = [] →
    Sys2Proof.core.run 2 (s.load (Pseudo.lines (.seed v))) =
      .next { s with seed := v.setWidth 8, crc := v.setWidth 8, result := (v.setWidth 8).setWidth 32, err := .ok,
                     resp := .done }

end Statements
end

