-- ==== Sys2Proof/Laws/Decode.lean ====
section
/-! SUPPORT. The fields of command words and of offsets, and what the decoders answer on them. -/

namespace Sys2Proof

theorem toNat_append_eq {m n : Nat} (x : BitVec m) (y : BitVec n) :
    (x ++ y).toNat = x.toNat * 2 ^ n + y.toNat := by
  rw [BitVec.toNat_append, ← Nat.shiftLeft_add_eq_or_of_lt y.isLt, Nat.shiftLeft_eq]

/-! ## Command words -/

theorem toNat_command_word (rsvd : Half) (imm8 op : Byte) :
    (rsvd ++ imm8 ++ op : Word).toNat = rsvd.toNat * 65536 + imm8.toNat * 256 + op.toNat := by
  have h1 : (rsvd ++ imm8 : BitVec 24).toNat = rsvd.toNat * 2 ^ 8 + imm8.toNat := toNat_append_eq rsvd imm8
  have h2 : (rsvd ++ imm8 ++ op : Word).toNat = (rsvd ++ imm8 : BitVec 24).toNat * 2 ^ 8 + op.toNat :=
    toNat_append_eq (rsvd ++ imm8 : BitVec 24) op
  rw [h2, h1]
  ring

@[simp] theorem cmdRsvd_word (rsvd : Half) (imm8 op : Byte) : cmdRsvd (rsvd ++ imm8 ++ op) = rsvd := by
  apply BitVec.eq_of_toNat_eq
  have := toNat_command_word rsvd imm8 op
  have h1 := imm8.isLt
  have h2 := op.isLt
  have h3 := rsvd.isLt
  unfold cmdRsvd
  rw [BitVec.extractLsb'_toNat, this, Nat.shiftRight_eq_div_pow]
  omega

@[simp] theorem cmdImm8_word (rsvd : Half) (imm8 op : Byte) : cmdImm8 (rsvd ++ imm8 ++ op) = imm8 := by
  apply BitVec.eq_of_toNat_eq
  have := toNat_command_word rsvd imm8 op
  have h1 := imm8.isLt
  have h2 := op.isLt
  unfold cmdImm8
  rw [BitVec.extractLsb'_toNat, this, Nat.shiftRight_eq_div_pow]
  omega

@[simp] theorem cmdOpcode_word (rsvd : Half) (imm8 op : Byte) : cmdOpcode (rsvd ++ imm8 ++ op) = op := by
  apply BitVec.eq_of_toNat_eq
  have := toNat_command_word rsvd imm8 op
  have h2 := op.isLt
  unfold cmdOpcode
  rw [BitVec.extractLsb'_toNat, this, Nat.shiftRight_eq_div_pow]
  omega

/-- Every word is made of its three fields. -/
theorem word_eq_fields (w : Word) : w = cmdRsvd w ++ cmdImm8 w ++ cmdOpcode w := by
  apply BitVec.eq_of_toNat_eq
  rw [toNat_command_word]
  have h := w.isLt
  unfold cmdRsvd cmdImm8 cmdOpcode
  simp only [BitVec.extractLsb'_toNat, Nat.shiftRight_eq_div_pow]
  omega

/-- What the command decoder answers on a word given by its fields. -/
theorem decodeCommand_word (rsvd : Half) (imm8 op : Byte) :
    decodeCommand (rsvd ++ imm8 ++ op) =
      if rsvd ≠ 0 then .error (.reservedBits rsvd) else decodeOpcode op imm8 := by
  unfold decodeCommand; simp

/-- The opcodes of the map (30_encoding.md R82), one by one. -/
theorem decodeOpcode_eq_ok_iff (o i : Byte) (c : Command) : decodeOpcode o i = .ok c ↔
    match c with
    | .nop => o = 0x00
    | .crcInit => o = 0x01
    | .crcByte imm8 => o = 0x02 ∧ imm8 = i
    | .crcRange => o = 0x03
    | .idEncode => o = 0x10
    | .idDecode => o = 0x11
    | .escSize => o = 0x20
    | .escape => o = 0x21
    | .unescape => o = 0x22
    | .frame => o = 0x23
    | .rxReset => o = 0x30 := by
  unfold decodeOpcode
  by_cases h1 : o = 0x00
  · subst h1; cases c <;> simp
  by_cases h2 : o = 0x01
  · subst h2; cases c <;> simp
  by_cases h3 : o = 0x02
  · subst h3; cases c <;> simp [eq_comm]
  by_cases h4 : o = 0x03
  · subst h4; cases c <;> simp
  by_cases h5 : o = 0x10
  · subst h5; cases c <;> simp
  by_cases h6 : o = 0x11
  · subst h6; cases c <;> simp
  by_cases h7 : o = 0x20
  · subst h7; cases c <;> simp
  by_cases h8 : o = 0x21
  · subst h8; cases c <;> simp
  by_cases h9 : o = 0x22
  · subst h9; cases c <;> simp
  by_cases h10 : o = 0x23
  · subst h10; cases c <;> simp
  by_cases h11 : o = 0x30
  · subst h11; cases c <;> simp
  simp only [h1, h2, h3, h4, h5, h6, h7, h8, h9, h10, h11, if_false]
  cases c <;> simp

/-- The table's mask keeps `RSVD` and `OPCODE`: two words agree under it exactly when these fields agree. -/
theorem and_mask_eq_iff (w : Word) (op : Byte) :
    w &&& 0xFFFF00FF = 0#16 ++ 0#8 ++ op ↔ cmdRsvd w = 0 ∧ cmdOpcode w = op := by
  have hw := word_eq_fields w
  generalize cmdRsvd w = rsvd at *
  generalize cmdImm8 w = imm8 at *
  generalize hop : cmdOpcode w = o at *
  subst hw
  have hm : (0xFFFF00FF : Word) = (0xFFFF#16 ++ 0#8) ++ 0xFF#8 := by decide
  have e : (rsvd ++ imm8 ++ o : Word) &&& 0xFFFF00FF = rsvd ++ 0#8 ++ o := by
    rw [hm]
    have a1 : (rsvd ++ imm8 ++ o) &&& ((0xFFFF#16 ++ 0#8) ++ 0xFF#8) =
        ((rsvd &&& 0xFFFF#16) ++ (imm8 &&& 0#8)) ++ (o &&& 0xFF#8) := by
      rw [BitVec.and_append, BitVec.and_append]
    have a2 : rsvd &&& 0xFFFF#16 = rsvd := BitVec.and_allOnes
    have a3 : o &&& 0xFF#8 = o := BitVec.and_allOnes
    rw [a2, a3, BitVec.and_zero] at a1
    exact a1
  rw [e]
  constructor
  · intro h
    have h1 := congrArg cmdRsvd h
    have h2 := congrArg cmdOpcode h
    rw [cmdRsvd_word, cmdRsvd_word] at h1
    rw [cmdOpcode_word, cmdOpcode_word] at h2
    exact ⟨h1, h2⟩
  · rintro ⟨h1, h2⟩
    rw [h1, h2]
    rfl

/-! ## Offsets -/

theorem toNat_window (k : BitVec 2) (a : BitVec 14) : (k ++ a : Half).toNat = k.toNat * 16384 + a.toNat :=
  toNat_append_eq k a

/-- The region of an offset of a window's pattern. -/
theorem regionOf_bufOffset (a : BitVec 14) : regionOf (bufOffset a) = .buf a := by
  have h := toNat_window 0b01#2 a
  have ha := a.isLt
  have h1 : (bufOffset a).extractLsb' 14 2 = 0b01 := by
    apply BitVec.eq_of_toNat_eq
    unfold bufOffset
    rw [BitVec.extractLsb'_toNat, h, Nat.shiftRight_eq_div_pow]
    simp; omega
  have h2 : (bufOffset a).extractLsb' 0 14 = a := by
    apply BitVec.eq_of_toNat_eq
    unfold bufOffset
    rw [BitVec.extractLsb'_toNat, h, Nat.shiftRight_eq_div_pow]
    simp; omega
  unfold regionOf
  rw [if_pos h1, h2]

theorem regionOf_rxbufOffset (a : BitVec 14) : regionOf (rxbufOffset a) = .rxbuf a := by
  have h := toNat_window 0b10#2 a
  have ha := a.isLt
  have h1 : (rxbufOffset a).extractLsb' 14 2 = 0b10 := by
    apply BitVec.eq_of_toNat_eq
    unfold rxbufOffset
    rw [BitVec.extractLsb'_toNat, h, Nat.shiftRight_eq_div_pow]
    simp; omega
  have h2 : (rxbufOffset a).extractLsb' 0 14 = a := by
    apply BitVec.eq_of_toNat_eq
    unfold rxbufOffset
    rw [BitVec.extractLsb'_toNat, h, Nat.shiftRight_eq_div_pow]
    simp; omega
  unfold regionOf
  rw [h1, h2]
  rfl

/-- The region of a register's offset. -/
theorem regionOf_regOffset (r : Reg) : regionOf r.offset = .regs r := by cases r <;> decide

/-- The two low bits of an offset are 0 exactly at the multiples of 4. -/
theorem low_bits_zero_iff (o : Half) : o.extractLsb' 0 2 = 0 ↔ o.toNat % 4 = 0 := by
  rw [← BitVec.toNat_inj, BitVec.extractLsb'_toNat]
  simp

theorem bufOffset_toNat (a : BitVec 14) : (bufOffset a).toNat = 0x4000 + a.toNat := by
  have := toNat_window 0b01#2 a
  unfold bufOffset; rw [this]; simp

theorem rxbufOffset_toNat (a : BitVec 14) : (rxbufOffset a).toNat = 0x8000 + a.toNat := by
  have := toNat_window 0b10#2 a
  unfold rxbufOffset; rw [this]; simp

theorem regOffset_toNat (r : Reg) : r.offset.toNat = 4 * r.index.toNat := by cases r <;> decide

/-- The offset of a region: each region is an interval of the map (20_memory.md R61). -/
theorem regionOf_spec (o : Half) :
    match regionOf o with
    | .regs r => o.toNat < 0x40 ∧ o.toNat / 4 = r.index.toNat
    | .buf a => o.toNat = 0x4000 + a.toNat
    | .rxbuf a => o.toNat = 0x8000 + a.toNat
    | .unmapped => (0x40 ≤ o.toNat ∧ o.toNat < 0x4000) ∨ 0xC000 ≤ o.toNat := by
  have ho := o.isLt
  have e2 : (o.extractLsb' 14 2).toNat = o.toNat / 16384 := by
    rw [BitVec.extractLsb'_toNat, Nat.shiftRight_eq_div_pow]; omega
  have e14 : (o.extractLsb' 0 14).toNat = o.toNat % 16384 := by
    rw [BitVec.extractLsb'_toNat, Nat.shiftRight_eq_div_pow]; simp
  have e10 : (o.extractLsb' 6 10).toNat = o.toNat / 64 := by
    rw [BitVec.extractLsb'_toNat, Nat.shiftRight_eq_div_pow]; omega
  have e4 : (o.extractLsb' 2 4).toNat = o.toNat / 4 % 16 := by
    rw [BitVec.extractLsb'_toNat, Nat.shiftRight_eq_div_pow]
  have idx : ∀ i : BitVec 4, (Reg.ofIndex i).index = i := by decide
  unfold regionOf
  by_cases h1 : o.extractLsb' 14 2 = 0b01
  · rw [if_pos h1]
    have := congrArg BitVec.toNat h1
    simp only [e2] at this
    simp at this ⊢
    omega
  · rw [if_neg h1]
    by_cases h2 : o.extractLsb' 14 2 = 0b10
    · rw [if_pos h2]
      have := congrArg BitVec.toNat h2
      simp only [e2] at this
      simp at this ⊢
      omega
    · rw [if_neg h2]
      by_cases h3 : o.extractLsb' 6 10 = 0
      · rw [if_pos h3]
        have := congrArg BitVec.toNat h3
        simp only [e10] at this
        simp only [idx, e4]
        simp at this
        omega
      · rw [if_neg h3]
        have n1 : o.toNat / 16384 ≠ 1 := fun h => h1 (BitVec.eq_of_toNat_eq (by rw [e2, h]; rfl))
        have n2 : o.toNat / 16384 ≠ 2 := fun h => h2 (BitVec.eq_of_toNat_eq (by rw [e2, h]; rfl))
        have n3 : o.toNat / 64 ≠ 0 := fun h => h3 (BitVec.eq_of_toNat_eq (by rw [e10, h]; rfl))
        show _ ∨ _
        omega

/-! ## Register accesses -/

theorem regOffset_low_bits (r : Reg) : r.offset.extractLsb' 0 2 = 0 := by cases r <;> decide

/-- A 32-bit read at a register's offset. -/
theorem decodeTransaction_regRead (r : Reg) (v : Word) :
    decodeTransaction ⟨.read, .word, r.offset, v⟩ = .ok (.regRead r) := by
  simp only [decodeTransaction, decodeWordAccess, regionOf_regOffset]
  rw [if_pos (regOffset_low_bits r)]

/-- A 32-bit write at a register's offset. -/
theorem decodeTransaction_regWrite (r : Reg) (v : Word) :
    decodeTransaction ⟨.write, .word, r.offset, v⟩ = .ok (decodeRegWrite r v) := by
  simp only [decodeTransaction, decodeWordAccess, regionOf_regOffset]
  rw [if_pos (regOffset_low_bits r)]

/-- A write of `CMD`. -/
theorem decodeTransaction_cmdWrite (w : Word) :
    decodeTransaction ⟨.write, .word, 0x0000, w⟩ = .ok (.cmdWrite w) :=
  decodeTransaction_regWrite .CMD w

/-- The byte in the low bits of a word. -/
theorem extract_setWidth_byte (b : Byte) : (b.setWidth 32 : Word).extractLsb' 0 8 = b := by
  apply BitVec.eq_of_toNat_eq
  have := b.isLt
  rw [BitVec.extractLsb'_toNat, BitVec.toNat_setWidth]
  omega

/-- A write of `RXDATA`. -/
theorem decodeTransaction_rxFeed (v : Word) :
    decodeTransaction ⟨.write, .word, 0x0030, v⟩ = .ok (.rxFeed (v.extractLsb' 0 8)) :=
  decodeTransaction_regWrite .RXDATA v

end Sys2Proof
end

