-- ==== Sys2Proof/Laws/CanId.lean ====
section
/-! SUPPORT. `CANID_PACK` and its inverse look up the rows of the graph; the halves of an identifier. -/

namespace Sys2Proof.Machine

/-- Two different members of a list are related, when its members are pairwise and symmetrically related. -/
theorem rel_of_pairwise {α : Type} {R : α → α → Prop} {l : List α} (h : l.Pairwise R)
    (hs : ∀ x y, R x y → R y x) {a b : α} (ha : a ∈ l) (hb : b ∈ l) (hn : a ≠ b) : R a b := by
  induction h with
  | nil => simp at ha
  | @cons c l h1 h2 ih =>
    rcases List.mem_cons.1 ha with e | ha'
    · rcases List.mem_cons.1 hb with e' | hb'
      · exact absurd (e.trans e'.symm) hn
      · rw [e]; exact h1 _ hb'
    · rcases List.mem_cons.1 hb with e' | hb'
      · rw [e']; exact hs _ _ (h1 _ ha')
      · exact ih ha' hb'

/-- `CANID_PACK(g, m, b)` is `u` exactly when the graph has that row. -/
theorem canidPack_eq_some_iff (c : Config) (g m b : Byte) (u : Half) :
    canidPack c.params g m b = some u ↔ ⟨g, m, b, u⟩ ∈ c.params.packRows := by
  unfold canidPack
  constructor
  · intro h
    simp only [Option.map_eq_some_iff] at h
    obtain ⟨r, hr, rfl⟩ := h
    have h1 := List.mem_of_find?_eq_some hr
    have h2 := List.find?_some hr
    simp only [decide_eq_true_eq] at h2
    obtain ⟨rfl, rfl, rfl⟩ := h2
    exact h1
  · intro h
    have h' : (c.params.packRows.find? fun r => r.group = g ∧ r.mode = m ∧ r.command = b).isSome := by
      rw [List.find?_isSome]; exact ⟨_, h, by simp⟩
    obtain ⟨r, hr⟩ := Option.isSome_iff_exists.1 h'
    rw [hr]
    have h1 := List.mem_of_find?_eq_some hr
    have h2 := List.find?_some hr
    simp only [decide_eq_true_eq] at h2
    obtain ⟨rfl, rfl, rfl⟩ := h2
    by_contra hne
    have hne' : r ≠ ⟨r.group, r.mode, r.command, u⟩ := fun h => hne (by rw [h]; rfl)
    exact rel_of_pairwise c.valid.canid.functional
      (fun x y hxy hyx => hxy ⟨hyx.1.symm, hyx.2.1.symm, hyx.2.2.symm⟩) h1 h hne' ⟨rfl, rfl, rfl⟩

/-- The triple of the upper half `u` is `(g, m, b)` exactly when the graph has that row. -/
theorem canidUnpack_eq_some_iff (c : Config) (g m b : Byte) (u : Half) :
    canidUnpack c.params u = some (g, m, b) ↔ ⟨g, m, b, u⟩ ∈ c.params.packRows := by
  unfold canidUnpack
  constructor
  · intro h
    simp only [Option.map_eq_some_iff] at h
    obtain ⟨r, hr, h3⟩ := h
    have h1 := List.mem_of_find?_eq_some hr
    have h2 := List.find?_some hr
    simp only [Prod.mk.injEq, decide_eq_true_eq] at h2 h3
    obtain ⟨rfl, rfl, rfl⟩ := h3
    subst h2
    exact h1
  · intro h
    have h' : (c.params.packRows.find? fun r => r.code = u).isSome := by
      rw [List.find?_isSome]; exact ⟨_, h, by simp⟩
    obtain ⟨r, hr⟩ := Option.isSome_iff_exists.1 h'
    rw [hr]
    have h1 := List.mem_of_find?_eq_some hr
    have h2 := List.find?_some hr
    simp only [decide_eq_true_eq] at h2
    by_contra hne
    have hne' : r ≠ ⟨g, m, b, u⟩ := fun h => hne (by rw [h]; rfl)
    exact rel_of_pairwise c.valid.canid.injective (fun x y hxy => hxy.symm) h1 h hne' h2

/-- The halves of a word put together from two halves. -/
theorem halves_of_append (u a : Half) :
    (u ++ a : Word).extractLsb' 0 16 = a ∧ (u ++ a : Word).extractLsb' 16 16 = u := by
  have h : (u ++ a : Word).toNat = u.toNat * 2 ^ 16 + a.toNat := toNat_append_eq u a
  have := u.isLt
  have := a.isLt
  constructor <;> apply BitVec.eq_of_toNat_eq <;>
    rw [BitVec.extractLsb'_toNat, h, Nat.shiftRight_eq_div_pow] <;> omega

/-- A word is its two halves put together. -/
theorem append_of_halves (w : Word) : (w.extractLsb' 16 16 ++ w.extractLsb' 0 16 : Word) = w := by
  have h : (w.extractLsb' 16 16 ++ w.extractLsb' 0 16 : Word).toNat
      = (w.extractLsb' 16 16).toNat * 2 ^ 16 + (w.extractLsb' 0 16).toNat := toNat_append_eq _ _
  have := w.isLt
  apply BitVec.eq_of_toNat_eq
  rw [h, BitVec.extractLsb'_toNat, BitVec.extractLsb'_toNat, Nat.shiftRight_eq_div_pow]
  omega

end Sys2Proof.Machine
end

