-- ==== Sys2Proof/Laws/Crc.lean ====
section
/-! SUPPORT. The CRC's shift is linear; the CRC of a sequence with one byte more. -/

namespace Sys2Proof.Machine

/-- One shift of an XOR is the XOR of the shifts (40_crc.md R103: "linear over GF(2)"). -/
theorem crcShift_xor (poly x y : Byte) : crcShift poly (x ^^^ y) = crcShift poly x ^^^ crcShift poly y := by
  unfold crcShift
  have h : (x ^^^ y).getLsbD 0 = (x.getLsbD 0 ^^ y.getLsbD 0) := BitVec.getLsbD_xor
  rw [h, BitVec.ushiftRight_xor_distrib]
  cases x.getLsbD 0 <;> cases y.getLsbD 0 <;> simp <;> ext i hi <;> simp <;>
    cases (x >>> 1)[i] <;> cases (y >>> 1)[i] <;> cases poly[i] <;> simp_all

/-- Any number of shifts of an XOR is the XOR of the shifts. -/
theorem iterate_crcShift_xor (poly : Byte) (n : Nat) (x y : Byte) :
    (crcShift poly)^[n] (x ^^^ y) = (crcShift poly)^[n] x ^^^ (crcShift poly)^[n] y := by
  induction n generalizing x y with
  | zero => rfl
  | succ n ih => simp only [Function.iterate_succ, Function.comp]; rw [crcShift_xor, ih]

/-- The CRC of a sequence with one byte more. -/
theorem crc8_concat (poly seed b : Byte) (p : List Byte) :
    crc8 poly seed (p ++ [b]) = crc8Step poly (crc8 poly seed p) b := by simp [crc8]

end Sys2Proof.Machine
end

