-- ==== Sys2Proof/Laws/Memory.lean ====
section
/-! SUPPORT. The laws of the memories: a read after a write, the canonical form, ranges. -/

namespace Sys2Proof.Machine.Memory

variable {m : Memory} {a b : Nat} {v : Byte} {vs : List Byte}

theorem wf_nil : wf [] := ⟨.nil, by simp⟩

/-- No address holds "no value", so the second half of the canonical form is no constraint on the cells. -/
theorem wf_iff : m.wf ↔ m.Pairwise (fun a b => a.1 < b.1) := by simp [wf, unlisted]

@[simp] theorem read?_nil : read? [] a = none := rfl

theorem read?_cons (c : Host.Cell) : read? (c :: m) a = if a = c.1 then some c.2 else m.read? a := by
  obtain ⟨_, _⟩ := c; rfl

theorem read?_write_same : (m.write a v).read? a = some v := by
  induction m with
  | nil => simp [write, read?_cons]
  | cons c m ih =>
    obtain ⟨b, w⟩ := c
    simp only [write]
    split
    · simp [read?_cons]
    · split
      · simp [read?_cons]
      · rename_i h; simp [read?_cons, h, ih]

theorem read?_write_ne (h : b ≠ a) : (m.write a v).read? b = m.read? b := by
  induction m with
  | nil => simp [write, read?_cons, h]
  | cons c m ih =>
    obtain ⟨c, w⟩ := c
    simp only [write]
    split
    · simp [read?_cons, h]
    · split
      · rename_i h'; subst h'; simp [read?_cons, h]
      · simp [read?_cons, ih]

/-- A read after a write. -/
theorem read?_write : (m.write a v).read? b = if b = a then some v else m.read? b := by
  split
  · subst b; exact read?_write_same
  · exact read?_write_ne ‹_›

/-- A read after a write of several bytes. -/
theorem read?_writeAll :
    (m.writeAll a vs).read? b = if a ≤ b ∧ b < a + vs.length then vs[b - a]? else m.read? b := by
  induction vs generalizing m a with
  | nil => simp [writeAll]
  | cons v vs ih =>
    rw [writeAll, ih, read?_write]
    by_cases hba : b = a
    · subst hba; simp
    · by_cases h : a ≤ b ∧ b < a + (vs.length + 1)
      · have h1 : a + 1 ≤ b ∧ b < a + 1 + vs.length := by omega
        have h2 : b - a = (b - (a + 1)) + 1 := by omega
        simp [h, h1, h2]
      · have h1 : ¬ (a + 1 ≤ b ∧ b < a + 1 + vs.length) := by omega
        rw [if_neg h1, if_neg hba, if_neg (by simpa using h)]

/-- The cells of a written memory: the new one, or cells that were there. -/
theorem mem_write {c : Host.Cell} (h : c ∈ m.write a v) : c = (a, v) ∨ c ∈ m := by
  induction m with
  | nil => simpa [write] using h
  | cons d m ih =>
    obtain ⟨b, w⟩ := d
    simp only [write] at h
    split at h
    · simpa using h
    · split at h
      · simp only [List.mem_cons] at h ⊢; tauto
      · simp only [List.mem_cons] at h ⊢
        rcases h with h | h
        · tauto
        · rcases ih h with h | h <;> tauto

theorem write_wf (h : m.wf) : (m.write a v).wf := by
  rw [wf_iff] at *
  induction m with
  | nil => simp [write]
  | cons d m ih =>
    obtain ⟨b, w⟩ := d
    obtain ⟨hb, hm⟩ := List.pairwise_cons.1 h
    simp only [write]
    split
    · rename_i hab
      refine List.pairwise_cons.2 ⟨fun c hc => ?_, h⟩
      rcases List.mem_cons.1 hc with rfl | hc
      · exact hab
      · exact hab.trans (hb c hc)
    · split
      · rename_i hab; subst hab; exact List.pairwise_cons.2 ⟨hb, hm⟩
      · refine List.pairwise_cons.2 ⟨fun c hc => ?_, ih hm⟩
        rcases mem_write hc with rfl | hc
        · show b < a; omega
        · exact hb c hc

theorem writeAll_wf (h : m.wf) : (m.writeAll a vs).wf := by
  induction vs generalizing m a with
  | nil => exact h
  | cons v vs ih => exact ih (write_wf h)

/-- A write inside a memory of `n` bytes leaves every cell inside it. -/
theorem write_inside {n : Nat} (h : ∀ c ∈ m, c.1 < n) (ha : a < n) : ∀ c ∈ m.write a v, c.1 < n := by
  intro c hc
  rcases mem_write hc with rfl | hc
  · exact ha
  · exact h c hc

theorem writeAll_inside {n : Nat} (h : ∀ c ∈ m, c.1 < n) (ha : a + vs.length ≤ n) :
    ∀ c ∈ m.writeAll a vs, c.1 < n := by
  induction vs generalizing m a with
  | nil => exact h
  | cons v vs ih =>
    rw [List.length_cons] at ha
    exact ih (write_inside h (by omega)) (by omega)

/-! ## Ranges -/

@[simp] theorem length_bytesAt (n d : Nat) : (m.bytesAt a n d).length = n := by
  induction n generalizing a d with
  | zero => rfl
  | succ n ih => simp [bytesAt, ih]

theorem getElem?_bytesAt (n d k : Nat) (h : k < n) : (m.bytesAt a n d)[k]? = some (m.byteAt (a + k) (d + k)) := by
  induction n generalizing a d k with
  | zero => omega
  | succ n ih =>
    cases k with
    | zero => simp [bytesAt]
    | succ k =>
      simp only [bytesAt, List.getElem?_cons_succ]
      rw [ih _ _ (by omega), show a + 1 + k = a + (k + 1) by omega, show d + 1 + k = d + (k + 1) by omega]

/-- The first bytes of a range. -/
theorem take_bytesAt {n k : Nat} (d : Nat) (h : k ≤ n) : (m.bytesAt a n d).take k = m.bytesAt a k d := by
  refine List.ext_getElem? fun j => ?_
  rw [List.getElem?_take]
  split
  · rename_i hj
    rw [getElem?_bytesAt n d j (by omega), getElem?_bytesAt k d j hj]
  · rw [List.getElem?_eq_none (by rw [length_bytesAt]; omega)]

/-- A byte that has been written reads as what was written, whatever the draw number. -/
theorem byteAt_of_read? (d : Nat) (h : m.read? a = some v) : m.byteAt a d = v := by simp [byteAt, h]

/-- A byte that nothing has written reads as the free byte of the draw. -/
theorem byteAt_of_unwritten (d : Nat) (h : m.read? a = none) : m.byteAt a d = Config.freeByte d := by
  simp [byteAt, h]

/-- A range that holds the bytes `vs` reads as `vs`. -/
theorem bytesAt_eq {n d : Nat} (hn : vs.length = n) (h : ∀ k, k < n → m.read? (a + k) = vs[k]?) :
    m.bytesAt a n d = vs := by
  refine List.ext_getElem? fun k => ?_
  by_cases hk : k < n
  · rw [getElem?_bytesAt n d k hk]
    have hv : vs[k]? = some vs[k] := List.getElem?_eq_getElem (by omega)
    rw [byteAt_of_read? (d + k) ((h k hk).trans hv), hv]
  · rw [List.getElem?_eq_none (by rw [length_bytesAt]; omega), List.getElem?_eq_none (by omega)]

end Sys2Proof.Machine.Memory
end

