-- ==== Sys2Proof/Laws/State.lean ====
section
/-! SUPPORT. One lemma for each field of the state under each named update. -/

namespace Sys2Proof.Machine

variable (s : State)

@[simp] theorem State.raise_cfg (e : ErrCode) : (s.raise e).cfg = s.cfg := rfl
@[simp] theorem State.raise_err (e : ErrCode) : (s.raise e).err = e := rfl
@[simp] theorem State.raise_src (e : ErrCode) : (s.raise e).src = s.src := rfl
@[simp] theorem State.raise_len (e : ErrCode) : (s.raise e).len = s.len := rfl
@[simp] theorem State.raise_dst (e : ErrCode) : (s.raise e).dst = s.dst := rfl
@[simp] theorem State.raise_cap (e : ErrCode) : (s.raise e).cap = s.cap := rfl
@[simp] theorem State.raise_result (e : ErrCode) : (s.raise e).result = s.result := rfl
@[simp] theorem State.raise_crc (e : ErrCode) : (s.raise e).crc = s.crc := rfl
@[simp] theorem State.raise_seed (e : ErrCode) : (s.raise e).seed = s.seed := rfl
@[simp] theorem State.raise_canid (e : ErrCode) : (s.raise e).canid = s.canid := rfl
@[simp] theorem State.raise_idGroup (e : ErrCode) : (s.raise e).idGroup = s.idGroup := rfl
@[simp] theorem State.raise_idMode (e : ErrCode) : (s.raise e).idMode = s.idMode := rfl
@[simp] theorem State.raise_idCommand (e : ErrCode) : (s.raise e).idCommand = s.idCommand := rfl
@[simp] theorem State.raise_sender (e : ErrCode) : (s.raise e).sender = s.sender := rfl
@[simp] theorem State.raise_rxState (e : ErrCode) : (s.raise e).rxState = s.rxState := rfl
@[simp] theorem State.raise_rxLen (e : ErrCode) : (s.raise e).rxLen = s.rxLen := rfl
@[simp] theorem State.raise_evt (e : ErrCode) : (s.raise e).evt = s.evt := rfl
@[simp] theorem State.raise_seq (e : ErrCode) : (s.raise e).seq = s.seq := rfl
@[simp] theorem State.raise_buf (e : ErrCode) : (s.raise e).buf = s.buf := rfl
@[simp] theorem State.raise_rxbuf (e : ErrCode) : (s.raise e).rxbuf = s.rxbuf := rfl
@[simp] theorem State.raise_draws (e : ErrCode) : (s.raise e).draws = s.draws := rfl
@[simp] theorem State.raise_resp (e : ErrCode) : (s.raise e).resp = s.resp := rfl
@[simp] theorem State.raise_host (e : ErrCode) : (s.raise e).host = s.host := rfl

@[simp] theorem State.succeed_cfg : (s.succeed).cfg = s.cfg := rfl
@[simp] theorem State.succeed_err : (s.succeed).err = .ok := rfl
@[simp] theorem State.succeed_src : (s.succeed).src = s.src := rfl
@[simp] theorem State.succeed_len : (s.succeed).len = s.len := rfl
@[simp] theorem State.succeed_dst : (s.succeed).dst = s.dst := rfl
@[simp] theorem State.succeed_cap : (s.succeed).cap = s.cap := rfl
@[simp] theorem State.succeed_result : (s.succeed).result = s.result := rfl
@[simp] theorem State.succeed_crc : (s.succeed).crc = s.crc := rfl
@[simp] theorem State.succeed_seed : (s.succeed).seed = s.seed := rfl
@[simp] theorem State.succeed_canid : (s.succeed).canid = s.canid := rfl
@[simp] theorem State.succeed_idGroup : (s.succeed).idGroup = s.idGroup := rfl
@[simp] theorem State.succeed_idMode : (s.succeed).idMode = s.idMode := rfl
@[simp] theorem State.succeed_idCommand : (s.succeed).idCommand = s.idCommand := rfl
@[simp] theorem State.succeed_sender : (s.succeed).sender = s.sender := rfl
@[simp] theorem State.succeed_rxState : (s.succeed).rxState = s.rxState := rfl
@[simp] theorem State.succeed_rxLen : (s.succeed).rxLen = s.rxLen := rfl
@[simp] theorem State.succeed_evt : (s.succeed).evt = s.evt := rfl
@[simp] theorem State.succeed_seq : (s.succeed).seq = s.seq := rfl
@[simp] theorem State.succeed_buf : (s.succeed).buf = s.buf := rfl
@[simp] theorem State.succeed_rxbuf : (s.succeed).rxbuf = s.rxbuf := rfl
@[simp] theorem State.succeed_draws : (s.succeed).draws = s.draws := rfl
@[simp] theorem State.succeed_resp : (s.succeed).resp = s.resp := rfl
@[simp] theorem State.succeed_host : (s.succeed).host = s.host := rfl

@[simp] theorem State.drawn_cfg (n : Nat) : (s.drawn n).cfg = s.cfg := rfl
@[simp] theorem State.drawn_err (n : Nat) : (s.drawn n).err = s.err := rfl
@[simp] theorem State.drawn_src (n : Nat) : (s.drawn n).src = s.src := rfl
@[simp] theorem State.drawn_len (n : Nat) : (s.drawn n).len = s.len := rfl
@[simp] theorem State.drawn_dst (n : Nat) : (s.drawn n).dst = s.dst := rfl
@[simp] theorem State.drawn_cap (n : Nat) : (s.drawn n).cap = s.cap := rfl
@[simp] theorem State.drawn_result (n : Nat) : (s.drawn n).result = s.result := rfl
@[simp] theorem State.drawn_crc (n : Nat) : (s.drawn n).crc = s.crc := rfl
@[simp] theorem State.drawn_seed (n : Nat) : (s.drawn n).seed = s.seed := rfl
@[simp] theorem State.drawn_canid (n : Nat) : (s.drawn n).canid = s.canid := rfl
@[simp] theorem State.drawn_idGroup (n : Nat) : (s.drawn n).idGroup = s.idGroup := rfl
@[simp] theorem State.drawn_idMode (n : Nat) : (s.drawn n).idMode = s.idMode := rfl
@[simp] theorem State.drawn_idCommand (n : Nat) : (s.drawn n).idCommand = s.idCommand := rfl
@[simp] theorem State.drawn_sender (n : Nat) : (s.drawn n).sender = s.sender := rfl
@[simp] theorem State.drawn_rxState (n : Nat) : (s.drawn n).rxState = s.rxState := rfl
@[simp] theorem State.drawn_rxLen (n : Nat) : (s.drawn n).rxLen = s.rxLen := rfl
@[simp] theorem State.drawn_evt (n : Nat) : (s.drawn n).evt = s.evt := rfl
@[simp] theorem State.drawn_seq (n : Nat) : (s.drawn n).seq = s.seq := rfl
@[simp] theorem State.drawn_buf (n : Nat) : (s.drawn n).buf = s.buf := rfl
@[simp] theorem State.drawn_rxbuf (n : Nat) : (s.drawn n).rxbuf = s.rxbuf := rfl
@[simp] theorem State.drawn_draws (n : Nat) : (s.drawn n).draws = s.draws + n := rfl
@[simp] theorem State.drawn_resp (n : Nat) : (s.drawn n).resp = s.resp := rfl
@[simp] theorem State.drawn_host (n : Nat) : (s.drawn n).host = s.host := rfl

@[simp] theorem State.respond_cfg (r : BusResponse) : (s.respond r).cfg = s.cfg := rfl
@[simp] theorem State.respond_err (r : BusResponse) : (s.respond r).err = s.err := rfl
@[simp] theorem State.respond_src (r : BusResponse) : (s.respond r).src = s.src := rfl
@[simp] theorem State.respond_len (r : BusResponse) : (s.respond r).len = s.len := rfl
@[simp] theorem State.respond_dst (r : BusResponse) : (s.respond r).dst = s.dst := rfl
@[simp] theorem State.respond_cap (r : BusResponse) : (s.respond r).cap = s.cap := rfl
@[simp] theorem State.respond_result (r : BusResponse) : (s.respond r).result = s.result := rfl
@[simp] theorem State.respond_crc (r : BusResponse) : (s.respond r).crc = s.crc := rfl
@[simp] theorem State.respond_seed (r : BusResponse) : (s.respond r).seed = s.seed := rfl
@[simp] theorem State.respond_canid (r : BusResponse) : (s.respond r).canid = s.canid := rfl
@[simp] theorem State.respond_idGroup (r : BusResponse) : (s.respond r).idGroup = s.idGroup := rfl
@[simp] theorem State.respond_idMode (r : BusResponse) : (s.respond r).idMode = s.idMode := rfl
@[simp] theorem State.respond_idCommand (r : BusResponse) : (s.respond r).idCommand = s.idCommand := rfl
@[simp] theorem State.respond_sender (r : BusResponse) : (s.respond r).sender = s.sender := rfl
@[simp] theorem State.respond_rxState (r : BusResponse) : (s.respond r).rxState = s.rxState := rfl
@[simp] theorem State.respond_rxLen (r : BusResponse) : (s.respond r).rxLen = s.rxLen := rfl
@[simp] theorem State.respond_evt (r : BusResponse) : (s.respond r).evt = s.evt := rfl
@[simp] theorem State.respond_seq (r : BusResponse) : (s.respond r).seq = s.seq := rfl
@[simp] theorem State.respond_buf (r : BusResponse) : (s.respond r).buf = s.buf := rfl
@[simp] theorem State.respond_rxbuf (r : BusResponse) : (s.respond r).rxbuf = s.rxbuf := rfl
@[simp] theorem State.respond_draws (r : BusResponse) : (s.respond r).draws = s.draws := rfl
@[simp] theorem State.respond_resp (r : BusResponse) : (s.respond r).resp = r := rfl
@[simp] theorem State.respond_host (r : BusResponse) : (s.respond r).host = s.host := rfl

@[simp] theorem State.finish_cfg (v : Word) : (s.finish v).cfg = s.cfg := rfl
@[simp] theorem State.finish_err (v : Word) : (s.finish v).err = .ok := rfl
@[simp] theorem State.finish_src (v : Word) : (s.finish v).src = s.src := rfl
@[simp] theorem State.finish_len (v : Word) : (s.finish v).len = s.len := rfl
@[simp] theorem State.finish_dst (v : Word) : (s.finish v).dst = s.dst := rfl
@[simp] theorem State.finish_cap (v : Word) : (s.finish v).cap = s.cap := rfl
@[simp] theorem State.finish_result (v : Word) : (s.finish v).result = v := rfl
@[simp] theorem State.finish_crc (v : Word) : (s.finish v).crc = s.crc := rfl
@[simp] theorem State.finish_seed (v : Word) : (s.finish v).seed = s.seed := rfl
@[simp] theorem State.finish_canid (v : Word) : (s.finish v).canid = s.canid := rfl
@[simp] theorem State.finish_idGroup (v : Word) : (s.finish v).idGroup = s.idGroup := rfl
@[simp] theorem State.finish_idMode (v : Word) : (s.finish v).idMode = s.idMode := rfl
@[simp] theorem State.finish_idCommand (v : Word) : (s.finish v).idCommand = s.idCommand := rfl
@[simp] theorem State.finish_sender (v : Word) : (s.finish v).sender = s.sender := rfl
@[simp] theorem State.finish_rxState (v : Word) : (s.finish v).rxState = s.rxState := rfl
@[simp] theorem State.finish_rxLen (v : Word) : (s.finish v).rxLen = s.rxLen := rfl
@[simp] theorem State.finish_evt (v : Word) : (s.finish v).evt = s.evt := rfl
@[simp] theorem State.finish_seq (v : Word) : (s.finish v).seq = s.seq := rfl
@[simp] theorem State.finish_buf (v : Word) : (s.finish v).buf = s.buf := rfl
@[simp] theorem State.finish_rxbuf (v : Word) : (s.finish v).rxbuf = s.rxbuf := rfl
@[simp] theorem State.finish_draws (v : Word) : (s.finish v).draws = s.draws := rfl
@[simp] theorem State.finish_resp (v : Word) : (s.finish v).resp = s.resp := rfl
@[simp] theorem State.finish_host (v : Word) : (s.finish v).host = s.host := rfl

@[simp] theorem State.post_cfg (e : RxEvent) : (s.post e).cfg = s.cfg := rfl
@[simp] theorem State.post_err (e : RxEvent) : (s.post e).err = s.err := rfl
@[simp] theorem State.post_src (e : RxEvent) : (s.post e).src = s.src := rfl
@[simp] theorem State.post_len (e : RxEvent) : (s.post e).len = s.len := rfl
@[simp] theorem State.post_dst (e : RxEvent) : (s.post e).dst = s.dst := rfl
@[simp] theorem State.post_cap (e : RxEvent) : (s.post e).cap = s.cap := rfl
@[simp] theorem State.post_result (e : RxEvent) : (s.post e).result = s.result := rfl
@[simp] theorem State.post_crc (e : RxEvent) : (s.post e).crc = s.crc := rfl
@[simp] theorem State.post_seed (e : RxEvent) : (s.post e).seed = s.seed := rfl
@[simp] theorem State.post_canid (e : RxEvent) : (s.post e).canid = s.canid := rfl
@[simp] theorem State.post_idGroup (e : RxEvent) : (s.post e).idGroup = s.idGroup := rfl
@[simp] theorem State.post_idMode (e : RxEvent) : (s.post e).idMode = s.idMode := rfl
@[simp] theorem State.post_idCommand (e : RxEvent) : (s.post e).idCommand = s.idCommand := rfl
@[simp] theorem State.post_sender (e : RxEvent) : (s.post e).sender = s.sender := rfl
@[simp] theorem State.post_rxState (e : RxEvent) : (s.post e).rxState = s.rxState := rfl
@[simp] theorem State.post_rxLen (e : RxEvent) : (s.post e).rxLen = s.rxLen := rfl
@[simp] theorem State.post_evt (e : RxEvent) : (s.post e).evt = e := rfl
@[simp] theorem State.post_seq (e : RxEvent) : (s.post e).seq = s.seq + 1 := rfl
@[simp] theorem State.post_buf (e : RxEvent) : (s.post e).buf = s.buf := rfl
@[simp] theorem State.post_rxbuf (e : RxEvent) : (s.post e).rxbuf = s.rxbuf := rfl
@[simp] theorem State.post_draws (e : RxEvent) : (s.post e).draws = s.draws := rfl
@[simp] theorem State.post_resp (e : RxEvent) : (s.post e).resp = s.resp := rfl
@[simp] theorem State.post_host (e : RxEvent) : (s.post e).host = s.host := rfl

@[simp] theorem State.sourceRead_cfg : (s.sourceRead).cfg = s.cfg := rfl
@[simp] theorem State.sourceRead_err : (s.sourceRead).err = s.err := rfl
@[simp] theorem State.sourceRead_src : (s.sourceRead).src = s.src := rfl
@[simp] theorem State.sourceRead_len : (s.sourceRead).len = s.len := rfl
@[simp] theorem State.sourceRead_dst : (s.sourceRead).dst = s.dst := rfl
@[simp] theorem State.sourceRead_cap : (s.sourceRead).cap = s.cap := rfl
@[simp] theorem State.sourceRead_result : (s.sourceRead).result = s.result := rfl
@[simp] theorem State.sourceRead_crc : (s.sourceRead).crc = s.crc := rfl
@[simp] theorem State.sourceRead_seed : (s.sourceRead).seed = s.seed := rfl
@[simp] theorem State.sourceRead_canid : (s.sourceRead).canid = s.canid := rfl
@[simp] theorem State.sourceRead_idGroup : (s.sourceRead).idGroup = s.idGroup := rfl
@[simp] theorem State.sourceRead_idMode : (s.sourceRead).idMode = s.idMode := rfl
@[simp] theorem State.sourceRead_idCommand : (s.sourceRead).idCommand = s.idCommand := rfl
@[simp] theorem State.sourceRead_sender : (s.sourceRead).sender = s.sender := rfl
@[simp] theorem State.sourceRead_rxState : (s.sourceRead).rxState = s.rxState := rfl
@[simp] theorem State.sourceRead_rxLen : (s.sourceRead).rxLen = s.rxLen := rfl
@[simp] theorem State.sourceRead_evt : (s.sourceRead).evt = s.evt := rfl
@[simp] theorem State.sourceRead_seq : (s.sourceRead).seq = s.seq := rfl
@[simp] theorem State.sourceRead_buf : (s.sourceRead).buf = s.buf := rfl
@[simp] theorem State.sourceRead_rxbuf : (s.sourceRead).rxbuf = s.rxbuf := rfl
@[simp] theorem State.sourceRead_draws : (s.sourceRead).draws = s.draws + s.len.toNat := rfl
@[simp] theorem State.sourceRead_resp : (s.sourceRead).resp = s.resp := rfl
@[simp] theorem State.sourceRead_host : (s.sourceRead).host = s.host := rfl

@[simp] theorem State.loadCrc_cfg (c : Byte) : (s.loadCrc c).cfg = s.cfg := rfl
@[simp] theorem State.loadCrc_err (c : Byte) : (s.loadCrc c).err = .ok := rfl
@[simp] theorem State.loadCrc_src (c : Byte) : (s.loadCrc c).src = s.src := rfl
@[simp] theorem State.loadCrc_len (c : Byte) : (s.loadCrc c).len = s.len := rfl
@[simp] theorem State.loadCrc_dst (c : Byte) : (s.loadCrc c).dst = s.dst := rfl
@[simp] theorem State.loadCrc_cap (c : Byte) : (s.loadCrc c).cap = s.cap := rfl
@[simp] theorem State.loadCrc_result (c : Byte) : (s.loadCrc c).result = c.setWidth 32 := rfl
@[simp] theorem State.loadCrc_crc (c : Byte) : (s.loadCrc c).crc = c := rfl
@[simp] theorem State.loadCrc_seed (c : Byte) : (s.loadCrc c).seed = s.seed := rfl
@[simp] theorem State.loadCrc_canid (c : Byte) : (s.loadCrc c).canid = s.canid := rfl
@[simp] theorem State.loadCrc_idGroup (c : Byte) : (s.loadCrc c).idGroup = s.idGroup := rfl
@[simp] theorem State.loadCrc_idMode (c : Byte) : (s.loadCrc c).idMode = s.idMode := rfl
@[simp] theorem State.loadCrc_idCommand (c : Byte) : (s.loadCrc c).idCommand = s.idCommand := rfl
@[simp] theorem State.loadCrc_sender (c : Byte) : (s.loadCrc c).sender = s.sender := rfl
@[simp] theorem State.loadCrc_rxState (c : Byte) : (s.loadCrc c).rxState = s.rxState := rfl
@[simp] theorem State.loadCrc_rxLen (c : Byte) : (s.loadCrc c).rxLen = s.rxLen := rfl
@[simp] theorem State.loadCrc_evt (c : Byte) : (s.loadCrc c).evt = s.evt := rfl
@[simp] theorem State.loadCrc_seq (c : Byte) : (s.loadCrc c).seq = s.seq := rfl
@[simp] theorem State.loadCrc_buf (c : Byte) : (s.loadCrc c).buf = s.buf := rfl
@[simp] theorem State.loadCrc_rxbuf (c : Byte) : (s.loadCrc c).rxbuf = s.rxbuf := rfl
@[simp] theorem State.loadCrc_draws (c : Byte) : (s.loadCrc c).draws = s.draws := rfl
@[simp] theorem State.loadCrc_resp (c : Byte) : (s.loadCrc c).resp = s.resp := rfl
@[simp] theorem State.loadCrc_host (c : Byte) : (s.loadCrc c).host = s.host := rfl

@[simp] theorem State.accept_cfg (rest : List HostEvent) : (s.accept rest).cfg = s.cfg := rfl
@[simp] theorem State.accept_err (rest : List HostEvent) : (s.accept rest).err = s.err := rfl
@[simp] theorem State.accept_src (rest : List HostEvent) : (s.accept rest).src = s.src := rfl
@[simp] theorem State.accept_len (rest : List HostEvent) : (s.accept rest).len = s.len := rfl
@[simp] theorem State.accept_dst (rest : List HostEvent) : (s.accept rest).dst = s.dst := rfl
@[simp] theorem State.accept_cap (rest : List HostEvent) : (s.accept rest).cap = s.cap := rfl
@[simp] theorem State.accept_result (rest : List HostEvent) : (s.accept rest).result = s.result := rfl
@[simp] theorem State.accept_crc (rest : List HostEvent) : (s.accept rest).crc = s.crc := rfl
@[simp] theorem State.accept_seed (rest : List HostEvent) : (s.accept rest).seed = s.seed := rfl
@[simp] theorem State.accept_canid (rest : List HostEvent) : (s.accept rest).canid = s.canid := rfl
@[simp] theorem State.accept_idGroup (rest : List HostEvent) : (s.accept rest).idGroup = s.idGroup := rfl
@[simp] theorem State.accept_idMode (rest : List HostEvent) : (s.accept rest).idMode = s.idMode := rfl
@[simp] theorem State.accept_idCommand (rest : List HostEvent) : (s.accept rest).idCommand = s.idCommand := rfl
@[simp] theorem State.accept_sender (rest : List HostEvent) : (s.accept rest).sender = s.sender := rfl
@[simp] theorem State.accept_rxState (rest : List HostEvent) : (s.accept rest).rxState = s.rxState := rfl
@[simp] theorem State.accept_rxLen (rest : List HostEvent) : (s.accept rest).rxLen = s.rxLen := rfl
@[simp] theorem State.accept_evt (rest : List HostEvent) : (s.accept rest).evt = s.evt := rfl
@[simp] theorem State.accept_seq (rest : List HostEvent) : (s.accept rest).seq = s.seq := rfl
@[simp] theorem State.accept_buf (rest : List HostEvent) : (s.accept rest).buf = s.buf := rfl
@[simp] theorem State.accept_rxbuf (rest : List HostEvent) : (s.accept rest).rxbuf = s.rxbuf := rfl
@[simp] theorem State.accept_draws (rest : List HostEvent) : (s.accept rest).draws = s.draws := rfl
@[simp] theorem State.accept_resp (rest : List HostEvent) : (s.accept rest).resp = .done := rfl
@[simp] theorem State.accept_host (rest : List HostEvent) : (s.accept rest).host = rest := rfl

@[simp] theorem State.restart_cfg : (s.restart).cfg = s.cfg := rfl
@[simp] theorem State.restart_err : (s.restart).err = s.err := rfl
@[simp] theorem State.restart_src : (s.restart).src = s.src := rfl
@[simp] theorem State.restart_len : (s.restart).len = s.len := rfl
@[simp] theorem State.restart_dst : (s.restart).dst = s.dst := rfl
@[simp] theorem State.restart_cap : (s.restart).cap = s.cap := rfl
@[simp] theorem State.restart_result : (s.restart).result = s.result := rfl
@[simp] theorem State.restart_crc : (s.restart).crc = s.crc := rfl
@[simp] theorem State.restart_seed : (s.restart).seed = s.seed := rfl
@[simp] theorem State.restart_canid : (s.restart).canid = s.canid := rfl
@[simp] theorem State.restart_idGroup : (s.restart).idGroup = s.idGroup := rfl
@[simp] theorem State.restart_idMode : (s.restart).idMode = s.idMode := rfl
@[simp] theorem State.restart_idCommand : (s.restart).idCommand = s.idCommand := rfl
@[simp] theorem State.restart_sender : (s.restart).sender = s.sender := rfl
@[simp] theorem State.restart_rxState : (s.restart).rxState = .inFrame := rfl
@[simp] theorem State.restart_rxLen : (s.restart).rxLen = 0 := rfl
@[simp] theorem State.restart_evt : (s.restart).evt = .aborted := rfl
@[simp] theorem State.restart_seq : (s.restart).seq = s.seq + 1 := rfl
@[simp] theorem State.restart_buf : (s.restart).buf = s.buf := rfl
@[simp] theorem State.restart_rxbuf : (s.restart).rxbuf = s.rxbuf := rfl
@[simp] theorem State.restart_draws : (s.restart).draws = s.draws := rfl
@[simp] theorem State.restart_resp : (s.restart).resp = s.resp := rfl
@[simp] theorem State.restart_host : (s.restart).host = s.host := rfl

@[simp] theorem State.truncated_cfg : (s.truncated).cfg = s.cfg := rfl
@[simp] theorem State.truncated_err : (s.truncated).err = s.err := rfl
@[simp] theorem State.truncated_src : (s.truncated).src = s.src := rfl
@[simp] theorem State.truncated_len : (s.truncated).len = s.len := rfl
@[simp] theorem State.truncated_dst : (s.truncated).dst = s.dst := rfl
@[simp] theorem State.truncated_cap : (s.truncated).cap = s.cap := rfl
@[simp] theorem State.truncated_result : (s.truncated).result = s.result := rfl
@[simp] theorem State.truncated_crc : (s.truncated).crc = s.crc := rfl
@[simp] theorem State.truncated_seed : (s.truncated).seed = s.seed := rfl
@[simp] theorem State.truncated_canid : (s.truncated).canid = s.canid := rfl
@[simp] theorem State.truncated_idGroup : (s.truncated).idGroup = s.idGroup := rfl
@[simp] theorem State.truncated_idMode : (s.truncated).idMode = s.idMode := rfl
@[simp] theorem State.truncated_idCommand : (s.truncated).idCommand = s.idCommand := rfl
@[simp] theorem State.truncated_sender : (s.truncated).sender = s.sender := rfl
@[simp] theorem State.truncated_rxState : (s.truncated).rxState = .idle := rfl
@[simp] theorem State.truncated_rxLen : (s.truncated).rxLen = 0 := rfl
@[simp] theorem State.truncated_evt : (s.truncated).evt = .truncatedEscape := rfl
@[simp] theorem State.truncated_seq : (s.truncated).seq = s.seq + 1 := rfl
@[simp] theorem State.truncated_buf : (s.truncated).buf = s.buf := rfl
@[simp] theorem State.truncated_rxbuf : (s.truncated).rxbuf = s.rxbuf := rfl
@[simp] theorem State.truncated_draws : (s.truncated).draws = s.draws := rfl
@[simp] theorem State.truncated_resp : (s.truncated).resp = s.resp := rfl
@[simp] theorem State.truncated_host : (s.truncated).host = s.host := rfl

end Sys2Proof.Machine
end

