-- ==== Sys2Proof/Laws/Ops.lean ====
section
/-! SUPPORT. For each shared operation, once, everything it can do. -/

namespace Sys2Proof.Machine

variable {s t : State}

/-- The writing commands: a range error, an error of the transform, an output that does not fit, or the output stored. -/
theorem State.transform_cases (s : State) (f : List Byte → Except ErrCode (List Byte)) :
    (¬ (s.SrcOK ∧ s.DstOK ∧ s.Disjoint) ∧ s.transform f = s.raise .rangeError)
      ∨ (s.SrcOK ∧ s.DstOK ∧ s.Disjoint ∧ ∃ e, f s.sourceBytes = .error e ∧ s.transform f = s.sourceRead.raise e)
      ∨ (s.SrcOK ∧ s.DstOK ∧ s.Disjoint ∧ ∃ out, f s.sourceBytes = .ok out ∧ s.cap.toNat < out.length
          ∧ s.transform f = s.sourceRead.raise .bufferTooSmall)
      ∨ (s.SrcOK ∧ s.DstOK ∧ s.Disjoint ∧ ∃ out, f s.sourceBytes = .ok out ∧ out.length ≤ s.cap.toNat
          ∧ s.transform f = { s.sourceRead with buf := s.buf.writeAll s.dst.toNat out }.finish
              (BitVec.ofNat 32 out.length)) := by
  unfold State.transform
  by_cases h1 : s.SrcOK ∧ s.DstOK
  · by_cases h2 : s.Disjoint
    · rw [if_neg (not_not.2 h1), if_neg (not_not.2 h2)]
      obtain ⟨hs, hd⟩ := h1
      cases hf : f s.sourceBytes with
      | error e => exact .inr (.inl ⟨hs, hd, h2, e, rfl, rfl⟩)
      | ok out =>
        by_cases hc : s.cap.toNat < out.length
        · exact .inr (.inr (.inl ⟨hs, hd, h2, out, rfl, hc, if_pos hc⟩))
        · exact .inr (.inr (.inr ⟨hs, hd, h2, out, rfl, Nat.le_of_not_lt hc, if_neg hc⟩))
    · exact .inl ⟨fun h => h2 h.2.2, by rw [if_neg (not_not.2 h1), if_pos h2]⟩
  · exact .inl ⟨fun h => h1 ⟨h.1, h.2.1⟩, if_pos h1⟩

/-- A byte access completes exactly inside the window. -/
theorem byteWindow_next_iff {size : Nat} {a : BitVec 14} :
    byteWindow size a s = .next t ↔ ByteInWindow size a ∧ s = t := by
  unfold byteWindow; split <;> simp_all

/-- A word access completes exactly when aligned and wholly inside the window. -/
theorem wordWindow_next_iff {size : Nat} {a : BitVec 14} :
    wordWindow size a s = .next t ↔ WordInWindow size a ∧ s = t := by
  unfold wordWindow
  split
  · rename_i h; simp [WordInWindow, h]
  · rename_i h; split <;> simp_all [WordInWindow]

/-- Appending a received byte: overflow at `RX_MAX`, else one more byte. -/
theorem State.append_cases (s : State) (v : Byte) :
    (s.rxLen.toNat = s.cfg.params.rxMax
        ∧ s.append v = { s.post .overflow with rxLen := 0, rxState := .idle })
      ∨ (s.rxLen.toNat ≠ s.cfg.params.rxMax
        ∧ s.append v = { s with rxbuf := s.rxbuf.write s.rxLen.toNat v, rxLen := s.rxLen + 1 }) := by
  unfold State.append; split <;> simp_all

/-- The end of a frame: accepted, or a mismatch. -/
theorem State.endFrame_cases (s : State) :
    (s.checksumOk ∧ s.endFrame =
        { (s.drawn s.rxLen.toNat).post .frameOk with rxLen := s.rxLen - 1, rxState := .idle })
      ∨ (¬ s.checksumOk ∧ s.endFrame =
        { (s.drawn s.rxLen.toNat).post .checksumMismatch with rxLen := 0, rxState := .idle }) := by
  unfold State.endFrame
  split
  · rename_i h; exact .inl ⟨h, rfl⟩
  · rename_i h; exact .inr ⟨h, rfl⟩

/-- One input byte: nothing, a start, an abort, the end of a frame, an escape, a truncated escape, or an appended byte. -/
theorem State.feed_cases (s : State) (b : Byte) :
    (s.rxState = .idle ∧ b ≠ s.cfg.params.soh ∧ s.feed b = s)
      ∨ (s.rxState = .idle ∧ b = s.cfg.params.soh ∧ s.feed b = { s with rxState := .inFrame, rxLen := 0 })
      ∨ (s.rxState ≠ .idle ∧ b = s.cfg.params.soh ∧ s.feed b = s.restart)
      ∨ (s.rxState = .inFrame ∧ b ≠ s.cfg.params.soh ∧ b = s.cfg.params.eot ∧ s.feed b = s.endFrame)
      ∨ (s.rxState = .inEscape ∧ b ≠ s.cfg.params.soh ∧ b = s.cfg.params.eot ∧ s.feed b = s.truncated)
      ∨ (s.rxState = .inFrame ∧ ¬ (b = s.cfg.params.soh ∨ b = s.cfg.params.eot) ∧ b = s.cfg.params.dle
          ∧ s.feed b = { s with rxState := .inEscape })
      ∨ (s.rxState = .inFrame ∧ ¬ isSentinel s.cfg.params b ∧ s.feed b = s.append b)
      ∨ (s.rxState = .inEscape ∧ ¬ (b = s.cfg.params.soh ∨ b = s.cfg.params.eot)
          ∧ s.feed b = { s with rxState := .inFrame }.append (escapeXor b)) := by
  unfold State.feed isSentinel
  cases hs : s.rxState <;> simp only
  all_goals (repeat' split) <;> simp_all

/-- One step: idle, a reset pulse, the meaning of the transaction's bus operation, or a bus fault. -/
theorem step_cases (s : State) :
    (s.host = [] ∧ step s = .next s)
      ∨ (∃ rest, s.host = .reset :: rest ∧ step s = .next (s.accept rest).applyReset)
      ∨ (∃ t rest i, s.host = .bus t :: rest ∧ decodeTransaction t = .ok i ∧ step s = exec i (s.accept rest))
      ∨ (∃ t rest e, s.host = .bus t :: rest ∧ decodeTransaction t = .error e ∧ step s = .fault (faultOf e)) := by
  unfold step
  rcases s.host with _ | ⟨_ | _, rest⟩
  · simp
  · rename_i t
    cases h : decodeTransaction t with
    | ok i => exact .inr (.inr (.inl ⟨t, rest, i, rfl, h, by simp only [h]⟩))
    | error e => exact .inr (.inr (.inr ⟨t, rest, e, rfl, h, by simp only [h]⟩))
  · exact .inr (.inl ⟨rest, rfl, rfl⟩)

/-- A run of no steps. -/
theorem run_zero (s : State) : Sys2Proof.core.run 0 s = .next s := rfl

/-- A run whose first step completes. -/
theorem run_succ {k : Nat} (h : step s = .next t) : Sys2Proof.core.run (k + 1) s = Sys2Proof.core.run k t := by
  have h' : Sys2Proof.core.step s = .next t := h
  simp only [Host.Core.run, h']

/-- A step at a transaction. -/
theorem step_bus {tr : Transaction} {rest : List HostEvent} (h : s.host = .bus tr :: rest) :
    step s = match decodeTransaction tr with
      | .ok i => exec i (s.accept rest)
      | .error e => .fault (faultOf e) := by
  cases hd : decodeTransaction tr <;> simp only [step, h, hd]

/-- Writing a register that stores leaves everything but the registers as it was. -/
theorem State.regStore_frame (s : State) (v : Word) (r : Reg) :
    (s.regStore v r).buf = s.buf ∧ (s.regStore v r).rxbuf = s.rxbuf ∧ (s.regStore v r).cfg = s.cfg
      ∧ (s.regStore v r).err = s.err ∧ (s.regStore v r).result = s.result ∧ (s.regStore v r).rxState = s.rxState
      ∧ (s.regStore v r).rxLen = s.rxLen ∧ (s.regStore v r).evt = s.evt ∧ (s.regStore v r).seq = s.seq
      ∧ (s.regStore v r).draws = s.draws ∧ (s.regStore v r).resp = s.resp ∧ (s.regStore v r).host = s.host := by
  cases r <;> exact ⟨rfl, rfl, rfl, rfl, rfl, rfl, rfl, rfl, rfl, rfl, rfl, rfl⟩

/-- A command always completes. -/
theorem runCommand_next (c : Command) (s : State) : ∃ t, runCommand c s = .next t := by
  cases c with
  | crcRange => simp only [runCommand, execCrcRange]; split <;> exact ⟨_, rfl⟩
  | idEncode =>
    simp only [runCommand, execIdEncode]
    split
    · split <;> exact ⟨_, rfl⟩
    · exact ⟨_, rfl⟩
  | idDecode => simp only [runCommand, execIdDecode]; split <;> exact ⟨_, rfl⟩
  | escSize => simp only [runCommand, execEscSize]; split <;> exact ⟨_, rfl⟩
  | nop => exact ⟨_, rfl⟩
  | crcInit => exact ⟨_, rfl⟩
  | crcByte imm8 => exact ⟨_, rfl⟩
  | escape => exact ⟨_, rfl⟩
  | unescape => exact ⟨_, rfl⟩
  | frame => exact ⟨_, rfl⟩
  | rxReset => exact ⟨_, rfl⟩

/-- A decoded command runs as its row of the table. -/
theorem runCommand_eq_exec (c : Command) (s : State) : runCommand c s = exec c.toInstr s := by cases c <;> rfl

end Sys2Proof.Machine
end

