-- ==== Sys2Proof/Laws/Exec.lean ====
section
/-! SUPPORT. What holds of every meaning, and the effect of a command in all its words. -/

namespace Sys2Proof.Machine

variable {s t : State}

/-- The effect of a command in all its words, from its meaning. -/
theorem commandRuns_of_exec {op : Byte} {c : Byte → Command} {t : Byte → State}
    (hd : ∀ imm8, decodeOpcode op imm8 = .ok (c imm8)) (h : ∀ imm8, exec (c imm8).toInstr s = .next (t imm8)) :
    CommandRuns op (fun imm8 => (c imm8).toInstr) s t := by
  refine ⟨h, fun imm8 => ?_, fun r i hr => ?_⟩
  · show execCmdWrite _ s = _
    unfold execCmdWrite
    rw [decodeCommand_word, if_neg (by simp), hd]
    show runCommand _ _ = _
    rw [runCommand_eq_exec]
    exact h imm8
  · show execCmdWrite _ s = _
    unfold execCmdWrite
    rw [decodeCommand_word, if_pos hr]
    rfl

/-- The same for a command that ignores `IMM8`. -/
theorem commandTakes_of_exec {op : Byte} (c : Command) (hd : ∀ imm8, decodeOpcode op imm8 = .ok c)
    (h : exec c.toInstr s = .next t) : CommandTakes op c.toInstr s t :=
  commandRuns_of_exec (c := fun _ => c) hd fun _ => h

/-- The writing commands write `STATUS`, `RESULT` and `BUF` only. -/
theorem State.transform_frame (s : State) (f : List Byte → Except ErrCode (List Byte)) :
    s.transform f = { s with err := (s.transform f).err, draws := (s.transform f).draws,
                             result := (s.transform f).result, buf := (s.transform f).buf } := by
  rcases s.transform_cases f with ⟨_, e⟩ | ⟨_, _, _, _, _, e⟩ | ⟨_, _, _, _, _, _, e⟩ | ⟨_, _, _, _, _, _, e⟩ <;>
    rw [e] <;> rfl

/-- An input byte writes the deframer's state only. -/
theorem State.feed_frame (s : State) (b : Byte) :
    s.feed b = { s with rxState := (s.feed b).rxState, rxLen := (s.feed b).rxLen, rxbuf := (s.feed b).rxbuf,
                        evt := (s.feed b).evt, seq := (s.feed b).seq, draws := (s.feed b).draws } := by
  unfold State.feed State.endFrame State.append State.restart State.truncated
  cases h : s.rxState <;> simp only <;> (repeat' split) <;> (simp [State.post, State.drawn, h]; try rw [← h])

/-- A command leaves the pending events and the parameters as they are. -/
theorem runCommand_frame (c : Command) (h : runCommand c s = .next t) : t.host = s.host ∧ t.cfg = s.cfg := by
  cases c with
  | crcRange => simp only [runCommand, execCrcRange] at h; split at h <;> cases h <;> exact ⟨rfl, rfl⟩
  | idEncode =>
    simp only [runCommand, execIdEncode] at h
    split at h
    · split at h <;> cases h <;> exact ⟨rfl, rfl⟩
    · cases h; exact ⟨rfl, rfl⟩
  | idDecode => simp only [runCommand, execIdDecode] at h; split at h <;> cases h <;> exact ⟨rfl, rfl⟩
  | escSize => simp only [runCommand, execEscSize] at h; split at h <;> cases h <;> exact ⟨rfl, rfl⟩
  | escape => simp only [runCommand, execEscape] at h; cases h; rw [s.transform_frame]; exact ⟨rfl, rfl⟩
  | unescape => simp only [runCommand, execUnescape] at h; cases h; rw [s.transform_frame]; exact ⟨rfl, rfl⟩
  | frame => simp only [runCommand, execFrame] at h; cases h; rw [s.transform_frame]; exact ⟨rfl, rfl⟩
  | nop => cases h; exact ⟨rfl, rfl⟩
  | crcInit => cases h; exact ⟨rfl, rfl⟩
  | crcByte imm8 => cases h; exact ⟨rfl, rfl⟩
  | rxReset => cases h; exact ⟨rfl, rfl⟩

/-- A write of `CMD` leaves the pending events and the parameters as they are. -/
theorem execCmdWrite_frame {w : Word} (h : execCmdWrite w s = .next t) : t.host = s.host ∧ t.cfg = s.cfg := by
  unfold execCmdWrite at h
  split at h
  · exact runCommand_frame _ h
  · cases h; exact ⟨rfl, rfl⟩

/-- A write of `CMD` always completes. -/
theorem execCmdWrite_next (w : Word) (s : State) : ∃ t, execCmdWrite w s = .next t := by
  unfold execCmdWrite
  split
  · exact runCommand_next _ _
  · exact ⟨_, rfl⟩

/-- Every instruction leaves the pending events and the parameters as they are. -/
theorem exec_frame (i : Instr) (h : exec i s = .next t) : t.host = s.host ∧ t.cfg = s.cfg := by
  cases i with
  | nop => exact runCommand_frame .nop h
  | crcInit => exact runCommand_frame .crcInit h
  | crcByte imm8 => exact runCommand_frame (.crcByte imm8) h
  | crcRange => exact runCommand_frame .crcRange h
  | idEncode => exact runCommand_frame .idEncode h
  | idDecode => exact runCommand_frame .idDecode h
  | escSize => exact runCommand_frame .escSize h
  | escape => exact runCommand_frame .escape h
  | unescape => exact runCommand_frame .unescape h
  | frame => exact runCommand_frame .frame h
  | rxReset => exact runCommand_frame .rxReset h
  | regRead r => cases h; exact ⟨rfl, rfl⟩
  | regWrite r v =>
    cases r <;> first
      | exact execCmdWrite_frame h
      | (cases h; rw [s.feed_frame]; exact ⟨rfl, rfl⟩)
      | (cases h; exact ⟨rfl, rfl⟩)
  | cmdWrite w => exact execCmdWrite_frame h
  | rxFeed b => cases h; rw [s.feed_frame]; exact ⟨rfl, rfl⟩
  | bufReadB a => simp only [exec, execBufReadB, byteWindow_next_iff] at h; rw [← h.2]; exact ⟨rfl, rfl⟩
  | bufReadW a => simp only [exec, execBufReadW, wordWindow_next_iff] at h; rw [← h.2]; exact ⟨rfl, rfl⟩
  | bufWriteB a v => simp only [exec, execBufWriteB, byteWindow_next_iff] at h; rw [← h.2]; exact ⟨rfl, rfl⟩
  | bufWriteW a v => simp only [exec, execBufWriteW, wordWindow_next_iff] at h; rw [← h.2]; exact ⟨rfl, rfl⟩
  | rxbufReadB a => simp only [exec, execRxbufReadB, byteWindow_next_iff] at h; rw [← h.2]; exact ⟨rfl, rfl⟩
  | rxbufReadW a => simp only [exec, execRxbufReadW, wordWindow_next_iff] at h; rw [← h.2]; exact ⟨rfl, rfl⟩

/-- Every instruction answers a next state or a bus fault; none is refused. -/
theorem exec_next_or_fault (i : Instr) (s : State) : (∃ t, exec i s = .next t) ∨ ∃ f, exec i s = .fault f := by
  cases i with
  | crcRange => exact .inl (runCommand_next .crcRange s)
  | idEncode => exact .inl (runCommand_next .idEncode s)
  | idDecode => exact .inl (runCommand_next .idDecode s)
  | escSize => exact .inl (runCommand_next .escSize s)
  | cmdWrite w => exact .inl (execCmdWrite_next w s)
  | regWrite r v => cases r <;> first | exact .inl (execCmdWrite_next v s) | exact .inl ⟨_, rfl⟩
  | bufReadB a => simp only [exec, execBufReadB, byteWindow]; split <;> simp
  | bufWriteB a v => simp only [exec, execBufWriteB, byteWindow]; split <;> simp
  | rxbufReadB a => simp only [exec, execRxbufReadB, byteWindow]; split <;> simp
  | bufReadW a => simp only [exec, execBufReadW, wordWindow]; (repeat' split) <;> simp
  | bufWriteW a v => simp only [exec, execBufWriteW, wordWindow]; (repeat' split) <;> simp
  | rxbufReadW a => simp only [exec, execRxbufReadW, wordWindow]; (repeat' split) <;> simp
  | _ => exact .inl ⟨_, rfl⟩

/-- The step at a byte fed to the deframer. -/
theorem step_feedEvent {b : Byte} {rest : List HostEvent} (h : s.host = feedEvent b :: rest) :
    step s = .next ((s.accept rest).feed b) := by
  rw [step_bus h, decodeTransaction_rxFeed, extract_setWidth_byte]
  rfl

/-- The pending events and the answer play no part in a deframer step. -/
theorem State.feed_with_host (s : State) (b : Byte) (host : List HostEvent) (resp : BusResponse) :
    ({ s with host := host, resp := resp }).feed b = { s.feed b with host := host, resp := resp } := by
  unfold State.feed
  cases h : s.rxState <;> simp only
  · split <;> simp_all
  · (repeat' split) <;> try rfl
    · unfold State.endFrame State.checksumOk; simp only; split <;> rfl
    · unfold State.append; simp only; split <;> simp_all [State.post]
  · (repeat' split) <;> try rfl
    unfold State.append; simp only; split <;> simp_all [State.post]

end Sys2Proof.Machine
end

