-- ==== Sys2Proof/Laws/PerInstr.lean ====
section
/-! SUPPORT. Laws of every instruction as it is written: what the offset pattern or the opcode of its row says of its encoding. -/

namespace Sys2Proof.Laws.RowBits

/-- The word `w` matches `pattern` under `mask` (30_encoding.md R82). -/
def IsWord (pattern : Word) : Packet → Prop
  | .cmd32 w => w &&& 0xFFFF00FF = pattern
  | .bus _ => False

/-- A transaction of the direction and width of a row, its offset matching `pattern` under `mask` (30_encoding.md R83). -/
def IsBus (dir : Dir) (width : Width) (pattern mask : Half) : Packet → Prop
  | .cmd32 _ => False
  | .bus t => t.dir = dir ∧ t.width = width ∧ t.offset &&& mask = pattern

/-- The encoding of an instruction of the table matches the fixed bits of its row in opcode_table.json. -/
def Statement (i : Instr) : Prop :=
  i.patternOk = true →
    match i with
    | .nop => IsWord 0x00000000 (encode i)
    | .crcInit => IsWord 0x00000001 (encode i)
    | .crcByte _ => IsWord 0x00000002 (encode i)
    | .crcRange => IsWord 0x00000003 (encode i)
    | .idEncode => IsWord 0x00000010 (encode i)
    | .idDecode => IsWord 0x00000011 (encode i)
    | .escSize => IsWord 0x00000020 (encode i)
    | .escape => IsWord 0x00000021 (encode i)
    | .unescape => IsWord 0x00000022 (encode i)
    | .frame => IsWord 0x00000023 (encode i)
    | .rxReset => IsWord 0x00000030 (encode i)
    | .regRead _ => IsBus .read .word 0x0000 0xFFC3 (encode i)
    | .regWrite _ _ => IsBus .write .word 0x0000 0xFFC3 (encode i)
    | .cmdWrite _ => IsBus .write .word 0x0000 0xFFFF (encode i)
    | .rxFeed _ => IsBus .write .word 0x0030 0xFFFF (encode i)
    | .bufReadB _ => IsBus .read .byte 0x4000 0xC000 (encode i)
    | .bufReadW _ => IsBus .read .word 0x4000 0xC003 (encode i)
    | .bufWriteB _ _ => IsBus .write .byte 0x4000 0xC000 (encode i)
    | .bufWriteW _ _ => IsBus .write .word 0x4000 0xC003 (encode i)
    | .rxbufReadB _ => IsBus .read .byte 0x8000 0xC000 (encode i)
    | .rxbufReadW _ => IsBus .read .word 0x8000 0xC003 (encode i)

/-- The two window bits of an offset, whatever the address. -/
theorem window_bits (k : BitVec 2) (a : BitVec 14) : (k ++ a) &&& 0xC000 = k ++ 0#14 := by
  have h : (0xC000 : Half) = 3#2 ++ 0#14 := by decide
  rw [h, BitVec.and_append]
  have h3 : k &&& 3#2 = k := by revert k; decide
  rw [h3, BitVec.and_zero]

/-- The window bits and the two low bits of an aligned offset. -/
theorem aligned_window_bits (k : BitVec 2) (a : BitVec 14) (h : a.toNat % 4 = 0) :
    (k ++ a) &&& 0xC003 = k ++ 0#14 := by
  have h' : (0xC003 : Half) = 3#2 ++ 3#14 := by decide
  rw [h', BitVec.and_append]
  have h3 : k &&& 3#2 = k := by revert k; decide
  have h4 : a &&& 3#14 = 0#14 := by
    apply BitVec.eq_of_toNat_eq
    rw [BitVec.toNat_and]
    show a.toNat &&& (2 ^ 2 - 1) = 0
    rw [Nat.and_two_pow_sub_one_eq_mod]
    exact h
  rw [h3, h4]

/-- The fixed bits of a register's offset. -/
theorem reg_bits (r : Reg) : r.offset &&& 0xFFC3 = 0 := by cases r <;> decide

theorem nop : Statement .nop := fun _ => by show _ = _; decide
theorem crcInit : Statement .crcInit := fun _ => by show _ = _; decide
theorem crcByte (imm8 : Byte) : Statement (.crcByte imm8) := fun _ => by
  show commandWord imm8 0x02 &&& 0xFFFF00FF = 2
  revert imm8; decide
theorem crcRange : Statement .crcRange := fun _ => by show _ = _; decide
theorem idEncode : Statement .idEncode := fun _ => by show _ = _; decide
theorem idDecode : Statement .idDecode := fun _ => by show _ = _; decide
theorem escSize : Statement .escSize := fun _ => by show _ = _; decide
theorem escape : Statement .escape := fun _ => by show _ = _; decide
theorem unescape : Statement .unescape := fun _ => by show _ = _; decide
theorem frame : Statement .frame := fun _ => by show _ = _; decide
theorem rxReset : Statement .rxReset := fun _ => by show _ = _; decide
theorem regRead (r : Reg) : Statement (.regRead r) := fun _ => ⟨rfl, rfl, reg_bits r⟩
theorem regWrite (r : Reg) (v : Word) : Statement (.regWrite r v) := fun _ => ⟨rfl, rfl, reg_bits r⟩
theorem cmdWrite (w : Word) : Statement (.cmdWrite w) := fun _ => ⟨rfl, rfl, (by decide : (0x0000 : Half) &&& 0xFFFF = 0x0000)⟩
theorem rxFeed (b : Byte) : Statement (.rxFeed b) := fun _ => ⟨rfl, rfl, (by decide : (0x0030 : Half) &&& 0xFFFF = 0x0030)⟩
theorem bufReadB (a : BitVec 14) : Statement (.bufReadB a) := fun _ => ⟨rfl, rfl, window_bits _ a⟩
theorem bufReadW (a : BitVec 14) : Statement (.bufReadW a) := fun h =>
  ⟨rfl, rfl, aligned_window_bits _ a (by simpa [Instr.patternOk] using h)⟩
theorem bufWriteB (a : BitVec 14) (v : Byte) : Statement (.bufWriteB a v) := fun _ => ⟨rfl, rfl, window_bits _ a⟩
theorem bufWriteW (a : BitVec 14) (v : Word) : Statement (.bufWriteW a v) := fun h =>
  ⟨rfl, rfl, aligned_window_bits _ a (by simpa [Instr.patternOk] using h)⟩
theorem rxbufReadB (a : BitVec 14) : Statement (.rxbufReadB a) := fun _ => ⟨rfl, rfl, window_bits _ a⟩
theorem rxbufReadW (a : BitVec 14) : Statement (.rxbufReadW a) := fun h =>
  ⟨rfl, rfl, aligned_window_bits _ a (by simpa [Instr.patternOk] using h)⟩

end Sys2Proof.Laws.RowBits
end

