-- ==== Sys2Proof/Laws/Safety.lean ====
section
/-! SUPPORT. The terms of claims beside the operations of the model: what a range reads as, offsets and codes. -/

namespace Sys2Proof.Machine

variable {m : Memory} {a n d : Nat} {bytes : List Byte}

/-- What the model reads from a range is what the claims say the range reads as. -/
theorem reads_bytesAt (m : Memory) (a n d : Nat) : Reads m a n d (m.bytesAt a n d) :=
  ⟨Memory.length_bytesAt n d, fun k hk => Memory.getElem?_bytesAt n d k hk⟩

/-- A range reads as one list of bytes only. -/
theorem Reads.eq_bytesAt (h : Reads m a n d bytes) : bytes = m.bytesAt a n d := by
  refine List.ext_getElem? fun k => ?_
  by_cases hk : k < n
  · rw [h.2 k hk, (reads_bytesAt m a n d).2 k hk]
  · rw [List.getElem?_eq_none (by have := h.1; omega), List.getElem?_eq_none (by rw [Memory.length_bytesAt]; omega)]

/-- The source range of a command. -/
theorem readsSource_sourceBytes (s : State) : s.ReadsSource s.sourceBytes := reads_bytesAt _ _ _ _

theorem busOffset_eq (r : Reg) : busOffset r = r.offset := by cases r <;> rfl

theorem errNumber_eq (e : ErrCode) : errNumber e = e.code.setWidth 32 := by cases e <;> rfl

theorem evtNumber_eq (e : RxEvent) : evtNumber e = e.code.setWidth 32 := by cases e <;> rfl

theorem stateNumber_eq (x : RxState) : stateNumber x = x.code.setWidth 32 := by cases x <;> rfl

end Sys2Proof.Machine
end

