-- ==== Sys2Proof/Laws/Stuffing.lean ====
section
/-! SUPPORT. Escaping one byte more, and the escape transform undone. -/

namespace Sys2Proof.Machine

theorem escape_cons (p : Params) (b : Byte) (raw : List Byte) :
    Machine.escape p (b :: raw) = escByte p b ++ Machine.escape p raw := rfl

@[simp] theorem escapeXor_escapeXor (b : Byte) : escapeXor (escapeXor b) = b := by
  unfold escapeXor; ext i hi; simp

theorem unescapeFrom_nil (p : Params) : unescapeFrom p false [] = some [] ∧ unescapeFrom p true [] = none := ⟨rfl, rfl⟩

theorem unescapeFrom_dle (p : Params) (e : List Byte) :
    unescapeFrom p false (p.dle :: e) = unescapeFrom p true e := by simp [unescapeFrom]

theorem unescapeFrom_literal (p : Params) {b : Byte} (h : b ≠ p.dle) (e : List Byte) :
    unescapeFrom p false (b :: e) = (unescapeFrom p false e).map (b :: ·) := by simp [unescapeFrom, h]

end Sys2Proof.Machine
end

