-- ==== Sys2Proof/Laws/Words.lean ====
section
/-! SUPPORT. The bytes of words, little-endian. -/

namespace Sys2Proof.Machine

/-- Byte `k` of a word put together from four bytes. -/
theorem byte_of_wordOfBytes (b0 b1 b2 b3 : Byte) :
    (wordOfBytes b0 b1 b2 b3).setWidth 8 = b0 ∧ (wordOfBytes b0 b1 b2 b3 >>> 8).setWidth 8 = b1
      ∧ (wordOfBytes b0 b1 b2 b3 >>> 16).setWidth 8 = b2 ∧ (wordOfBytes b0 b1 b2 b3 >>> 24).setWidth 8 = b3 := by
  have e1 : (b3 ++ b2 : BitVec 16).toNat = b3.toNat * 2 ^ 8 + b2.toNat := toNat_append_eq _ _
  have e2 : (b3 ++ b2 ++ b1 : BitVec 24).toNat = (b3 ++ b2 : BitVec 16).toNat * 2 ^ 8 + b1.toNat :=
    toNat_append_eq (b3 ++ b2 : BitVec 16) _
  have e3 : (b3 ++ b2 ++ b1 ++ b0 : BitVec 32).toNat = (b3 ++ b2 ++ b1 : BitVec 24).toNat * 2 ^ 8 + b0.toNat :=
    toNat_append_eq (b3 ++ b2 ++ b1 : BitVec 24) _
  have h0 := b0.isLt
  have h1 := b1.isLt
  have h2 := b2.isLt
  have h3 := b3.isLt
  refine ⟨?_, ?_, ?_, ?_⟩ <;> apply BitVec.eq_of_toNat_eq <;>
    simp only [wordOfBytes, BitVec.toNat_setWidth, BitVec.toNat_ushiftRight, Nat.shiftRight_eq_div_pow, e3, e2, e1] <;>
    norm_num <;> omega

/-- Byte `k` of a word read from memory. -/
theorem byte_of_wordAt (m : Memory) (a d k : Nat) (hk : k < 4) :
    (m.wordAt a d >>> (8 * k)).setWidth 8 = m.byteAt (a + k) (d + k) := by
  have h := byte_of_wordOfBytes (m.byteAt a d) (m.byteAt (a + 1) (d + 1)) (m.byteAt (a + 2) (d + 2))
    (m.byteAt (a + 3) (d + 3))
  rw [Memory.wordAt]
  match k, hk with
  | 0, _ => simpa using h.1
  | 1, _ => exact h.2.1
  | 2, _ => exact h.2.2.1
  | 3, _ => exact h.2.2.2

/-- The bytes that a word stores. -/
theorem getElem?_bytesOfWord (w : Word) (k : Nat) (hk : k < 4) :
    (bytesOfWord w)[k]? = some ((w >>> (8 * k)).setWidth 8) := by
  match k, hk with
  | 0, _ | 1, _ | 2, _ | 3, _ =>
    simp only [bytesOfWord, List.getElem?_cons_succ, List.getElem?_cons_zero, Option.some.injEq]
    apply BitVec.eq_of_toNat_eq
    rw [BitVec.extractLsb'_toNat]
    simp

/-- Two words with the same four bytes are equal. -/
theorem word_eq_of_bytes (v w : Word)
    (h : ∀ k, k < 4 → (v >>> (8 * k)).setWidth 8 = (w >>> (8 * k)).setWidth 8) : v = w := by
  apply BitVec.eq_of_toNat_eq
  have h0 := congrArg BitVec.toNat (h 0 (by omega))
  have h1 := congrArg BitVec.toNat (h 1 (by omega))
  have h2 := congrArg BitVec.toNat (h 2 (by omega))
  have h3 := congrArg BitVec.toNat (h 3 (by omega))
  have := v.isLt
  have := w.isLt
  simp only [BitVec.toNat_setWidth, BitVec.toNat_ushiftRight, Nat.shiftRight_eq_div_pow] at h0 h1 h2 h3
  norm_num at h0 h1 h2 h3
  omega

end Sys2Proof.Machine
end

