-- ==== Sys2Proof/Tests/Slice0.lean ====
section
/-! SUPPORT. Tests: ill-formed terms refused, words written out from the spec's encodings, single steps with the results of 95_test_vectors.md, and for each statement with hypotheses a state that meets them. -/

namespace Sys2Proof.Tests

open Sys2Proof Sys2Proof.Machine

/-! ## Well-formedness: one ill-formed term for each check, and its well-formed neighbour -/

theorem test_wf_regWrite_CMD : (Instr.regWrite .CMD 1).wellFormed .ref = false := by decide
theorem test_wf_regWrite_RXDATA : (Instr.regWrite .RXDATA 1).wellFormed .ref = false := by decide
theorem test_wf_regWrite_STATUS : (Instr.regWrite .STATUS 1).wellFormed .ref = true := by decide
theorem test_wf_bufReadW_misaligned : (Instr.bufReadW 2).wellFormed .ref = false := by decide
theorem test_wf_bufWriteW_misaligned : (Instr.bufWriteW 1 0).wellFormed .ref = false := by decide
theorem test_wf_rxbufReadW_misaligned : (Instr.rxbufReadW 3).wellFormed .ref = false := by decide
theorem test_wf_bufReadB_outside : (Instr.bufReadB 1024).wellFormed .ref = false := by decide
theorem test_wf_bufReadB_last : (Instr.bufReadB 1023).wellFormed .ref = true := by decide
theorem test_wf_bufReadW_outside : (Instr.bufReadW 1024).wellFormed .ref = false := by decide
theorem test_wf_bufReadW_last : (Instr.bufReadW 1020).wellFormed .ref = true := by decide
theorem test_wf_bufWriteB_outside : (Instr.bufWriteB 1024 0).wellFormed .ref = false := by decide
theorem test_wf_bufWriteW_outside : (Instr.bufWriteW 1024 0).wellFormed .ref = false := by decide
theorem test_wf_rxbufReadB_outside : (Instr.rxbufReadB 256).wellFormed .ref = false := by decide
theorem test_wf_rxbufReadW_outside : (Instr.rxbufReadW 256).wellFormed .ref = false := by decide
theorem test_wf_rxbufReadW_last : (Instr.rxbufReadW 252).wellFormed .ref = true := by decide

/-! ## Decoding: the bits of 30_encoding.md R82 and R83, `RSVD`, `IMM8`, `OPCODE` from left to right -/

theorem test_decode_NOP : decode (.cmd32 0b0000000000000000_00000000_00000000) = .ok .nop := by decide
theorem test_decode_CRC_INIT : decode (.cmd32 0b0000000000000000_00000000_00000001) = .ok .crcInit := by decide
theorem test_decode_CRC_BYTE :
    decode (.cmd32 0b0000000000000000_10001000_00000010) = .ok (.crcByte 0b10001000) := by decide
theorem test_decode_CRC_RANGE : decode (.cmd32 0b0000000000000000_10001000_00000011) = .ok .crcRange := by decide
theorem test_decode_ID_ENCODE : decode (.cmd32 0b0000000000000000_00000000_00010000) = .ok .idEncode := by decide
theorem test_decode_ID_DECODE : decode (.cmd32 0b0000000000000000_00000000_00010001) = .ok .idDecode := by decide
theorem test_decode_ESC_SIZE : decode (.cmd32 0b0000000000000000_00000000_00100000) = .ok .escSize := by decide
theorem test_decode_ESCAPE : decode (.cmd32 0b0000000000000000_11111111_00100001) = .ok .escape := by decide
theorem test_decode_UNESCAPE : decode (.cmd32 0b0000000000000000_00000000_00100010) = .ok .unescape := by decide
theorem test_decode_FRAME : decode (.cmd32 0b0000000000000000_00000000_00100011) = .ok .frame := by decide
theorem test_decode_RX_RESET : decode (.cmd32 0b0000000000000000_00000000_00110000) = .ok .rxReset := by decide
theorem test_decode_REG_READ :
    decode (.bus ⟨.read, .word, 0b0000000000_1101_00, 0⟩) = .ok (.regRead .RXSTAT) := by decide
theorem test_decode_REG_WRITE :
    decode (.bus ⟨.write, .word, 0b0000000000_1011_00, 0xCAFE⟩) = .ok (.regWrite .SENDER 0xCAFE) := by decide
theorem test_decode_CMD_WRITE :
    decode (.bus ⟨.write, .word, 0b0000000000000000, 0x23⟩) = .ok (.cmdWrite 0x23) := by decide
theorem test_decode_RXFEED :
    decode (.bus ⟨.write, .word, 0b0000000000110000, 0xABCDEF17⟩) = .ok (.rxFeed 0x17) := by decide
theorem test_decode_BUF_READB :
    decode (.bus ⟨.read, .byte, 0b01_00000000000101, 0⟩) = .ok (.bufReadB 5) := by decide
theorem test_decode_BUF_READW :
    decode (.bus ⟨.read, .word, 0b01_000000000001_00, 0⟩) = .ok (.bufReadW 4) := by decide
theorem test_decode_BUF_WRITEB :
    decode (.bus ⟨.write, .byte, 0b01_00000000000001, 0x5A⟩) = .ok (.bufWriteB 1 0x5A) := by decide
theorem test_decode_BUF_WRITEW :
    decode (.bus ⟨.write, .word, 0b01_000000000000_00, 0xCB010088⟩) = .ok (.bufWriteW 0 0xCB010088) := by decide
theorem test_decode_RXBUF_READB :
    decode (.bus ⟨.read, .byte, 0b10_00000000000011, 0⟩) = .ok (.rxbufReadB 3) := by decide
theorem test_decode_RXBUF_READW :
    decode (.bus ⟨.read, .word, 0b10_000000111111_00, 0⟩) = .ok (.rxbufReadW 252) := by decide

/-- 95_test_vectors.md V192, V193, V30: illegal command words. -/
theorem test_decode_illegal :
    decode (.cmd32 0x0000000F) = .error (.command (.unlistedOpcode 0x0F)) ∧
    decode (.cmd32 0x000000FF) = .error (.command (.unlistedOpcode 0xFF)) ∧
    decode (.cmd32 0x80000000) = .error (.command (.reservedBits 0x8000)) ∧
    decode (.cmd32 0x00010001) = .error (.command (.reservedBits 1)) := by decide

/-- 95_test_vectors.md V174 to V178, V181: bus faults of the offset, the width and the direction. -/
theorem test_decode_bus_faults :
    decode (.bus ⟨.read, .word, 0x4002, 0⟩) = .error (.bus .misaligned) ∧
    decode (.bus ⟨.read, .byte, 0x0004, 0⟩) = .error (.bus .byteToRegs) ∧
    decode (.bus ⟨.read, .word, 0x0006, 0⟩) = .error (.bus .misaligned) ∧
    decode (.bus ⟨.read, .word, 0x0040, 0⟩) = .error (.bus .unmapped) ∧
    decode (.bus ⟨.write, .byte, 0x8000, 0⟩) = .error (.bus .rxbufWrite) ∧
    decode (.bus ⟨.read, .half, 0x4000, 0⟩) = .error (.bus .halfWidth) := by decide

/-- The table's bits of a command row and of a bus row. -/
theorem test_decodeTableWord :
    decodeTableWord 32 0x00008802 = some (.crcByte 0x88) ∧ decodeTableWord 16 0x0034 = some (.regRead .RXSTAT) ∧
    decodeTableWord 32 0x00000004 = none ∧ decodeTableWord 16 0x0040 = none := by decide

theorem test_withFetchWord :
    step (State.reset.withFetchWord 32 0x00000004) =
      .next { State.reset with err := .illegalCommand, resp := .done } := by rfl

/-! ## Single steps -/

/-- One component of the state that a meaning answers. -/
def look {α : Type} (o : Host.Outcome State Fault Refusal) (f : State → α) : Option α :=
  match o with
  | .next s => some (f s)
  | .fault _ => none
  | .refused _ => none

/-- `bytes` in `BUF` from `BUF[a]` on. -/
def withBuf (a : Nat) (bytes : List Byte) : State := { State.reset with buf := Memory.writeAll [] a bytes }

/-- The same, with the operands of a range command. -/
def withRange (a : Nat) (bytes : List Byte) (src len dst cap : Half) : State :=
  { withBuf a bytes with src := src, len := len, dst := dst, cap := cap }

/-- The deframer inside a frame that has received `bytes`. -/
def inFrame (bytes : List Byte) : State :=
  { State.reset with rxState := .inFrame, rxLen := BitVec.ofNat 16 bytes.length, rxbuf := Memory.writeAll [] 0 bytes }

/-- R211: "`STATUS.ERR = BufferTooSmall`; `nop` gives `STATUS.ERR = OK`". -/
theorem test_NOP : look (exec .nop { State.reset with err := .bufferTooSmall }) (·.err) = some .ok := by decide

/-- V21. -/
theorem test_CRC_INIT :
    look (exec .crcInit { State.reset with seed := 0x5A, crc := 0 }) (fun t => (t.crc, t.result)) =
      some (0x5A, 0x5A) := by decide

/-- V22, `P8C`. -/
theorem test_CRC_BYTE :
    look (exec (.crcByte 0x88) State.reset) (fun t => (t.crc, t.result)) = some (0x7B, 0x7B) := by decide

set_option maxRecDepth 20000 in
/-- V25. -/
theorem test_CRC_RANGE :
    look (exec .crcRange (withRange 0 [0x88, 0x00, 0x01] 0 3 0 0)) (fun t => (t.crc, t.result)) =
      some (0xCB, 0xCB) := by decide

/-- V29. -/
theorem test_CRC_RANGE_no_wrap :
    look (exec .crcRange (withRange 0 [] 0xFFFF 0xFFFF 0 0)) (fun t => (t.err, t.crc)) =
      some (.rangeError, 0xFF) := by decide

set_option maxRecDepth 20000 in
/-- V52. -/
theorem test_ID_ENCODE :
    look (exec .idEncode { State.reset with idGroup := 0x0A, idMode := 2, idCommand := 5, sender := 0xCAFE })
      (fun t => (t.canid, t.err)) = some (0x2A05CAFE, .ok) := by decide

/-- V54. -/
theorem test_ID_ENCODE_unknown :
    look (exec .idEncode { State.reset with idGroup := 0x0A, idMode := 4, idCommand := 5, canid := 0x12345678 })
      (fun t => (t.canid, t.err)) = some (0x12345678, .unknownEncoding) := by decide

set_option maxRecDepth 20000 in
/-- V57. -/
theorem test_ID_DECODE :
    look (exec .idDecode { State.reset with canid := 0x0BFF0000, sender := 0x1111 })
      (fun t => (t.regValue .IDF, t.sender)) = some (0x00FF0302, 0x0000) := by decide

set_option maxRecDepth 20000 in
/-- V58. -/
theorem test_ID_DECODE_unknown :
    look (exec .idDecode { State.reset with canid := 0x00001234, sender := 0xCAFE, idGroup := 0x0A })
      (fun t => (t.err, t.sender)) = some (.unknownEncoding, 0xCAFE) := by decide

/-- V100. -/
theorem test_ESC_SIZE :
    look (exec .escSize (withRange 0 [0x00, 0x10, 0x02, 0x17] 0 4 0 0)) (·.result) = some 6 := by decide

/-- V102. -/
theorem test_ESC_SIZE_range :
    look (exec .escSize (withRange 0 [] 1022 3 0 0)) (·.err) = some .rangeError := by decide

/-- V103. -/
theorem test_ESCAPE :
    look (exec .escape (withRange 0 [0x00, 0x10, 0x02, 0x17] 0 4 0x10 6))
      (fun t => (t.result, (List.range 7).map fun k => t.buf.read? (0x10 + k))) =
      some (6, [some 0x00, some 0x10, some 0x30, some 0x02, some 0x10, some 0x37, none]) := by decide

/-- V108. -/
theorem test_ESCAPE_overlap :
    look (exec .escape (withRange 0 [0x00, 0x10, 0x02, 0x17] 0 4 3 8)) (·.err) = some .rangeError := by decide

/-- V110. -/
theorem test_UNESCAPE :
    look (exec .unescape (withRange 0x10 [0x00, 0x10, 0x30, 0x02, 0x10, 0x37] 0x10 6 0x20 8))
      (fun t => (t.result, (List.range 5).map fun k => t.buf.read? (0x20 + k))) =
      some (4, [some 0x00, some 0x10, some 0x02, some 0x17, none]) := by decide

/-- V112: TruncatedEscape is checked before BufferTooSmall. -/
theorem test_UNESCAPE_truncated :
    look (exec .unescape (withRange 0x14 [0x10] 0x14 1 0x30 0)) (·.err) = some .truncatedEscape := by decide

set_option maxRecDepth 20000 in
/-- V115. -/
theorem test_FRAME :
    look (exec .frame (withRange 0 [0x88, 0x00, 0x01] 0 3 0x100 16))
      (fun t => (t.result, t.crc, (List.range 8).map fun k => t.buf.read? (0x100 + k))) =
      some (7, 0xFF, [some 0x01, some 0x88, some 0x00, some 0x10, some 0x21, some 0xCB, some 0x17, none]) := by
  decide

set_option maxRecDepth 20000 in
/-- V116. -/
theorem test_FRAME_small :
    look (exec .frame (withRange 0 [0x88, 0x00, 0x01] 0 3 0x100 6)) (fun t => (t.err, t.result)) =
      some (.bufferTooSmall, 0) := by decide

/-- R182: "`RXSTATE = InEscape`, `RXLEN = 5`, `SEQ = 9`; `RX_RESET` gives `RXSTAT = 0x00000000`". -/
theorem test_RX_RESET :
    look (exec .rxReset { inFrame [0x88] with rxState := .inEscape, rxLen := 5, seq := 9 })
      (fun t => (t.regValue .RXSTAT, t.rxbuf.read? 0)) = some (0, some 0x88) := by decide

/-- V162, V163. -/
theorem test_REG_READ_hardwired :
    look (exec (.regRead .SENT) State.reset) (·.resp) = some (.word 0x00101701) ∧
    look (exec (.regRead .SIZES) State.reset) (·.resp) = some (.word 0x01000400) := by decide

/-- V130: the value of `RXSTAT`. -/
theorem test_REG_READ_RXSTAT :
    look (exec (.regRead .RXSTAT) { State.reset with rxLen := 3, seq := 1, evt := .frameOk }) (·.resp) =
      some (.word 0x00030110) := by decide

/-- V165, V166: a reserved field ignores the write. -/
theorem test_REG_WRITE :
    look (exec (.regWrite .SRC 0xFFFFFFFF) State.reset) (·.regValue .SRC) = some 0x0000FFFF ∧
    look (exec (.regWrite .IDF 0xAB123456) State.reset) (·.regValue .IDF) = some 0x00123456 := by decide

/-- V168: a read-only register. -/
theorem test_REG_WRITE_readonly :
    look (exec (.regWrite .STATUS 5) State.reset) (·.regValue .STATUS) = some 0 := by decide

/-- V30. -/
theorem test_CMD_WRITE_illegal :
    look (exec (.cmdWrite 0x00010001) { State.reset with crc := 0x77 }) (fun t => (t.regValue .STATUS, t.crc)) =
      some (5, 0x77) := by decide

/-- V194: CRC_RANGE ignores `IMM8`. -/
theorem test_CMD_WRITE_imm8_ignored :
    exec (.cmdWrite 0x00008803) State.reset = exec (.cmdWrite 0x00000003) State.reset := by rfl

set_option maxRecDepth 20000 in
/-- V130, its last byte. -/
theorem test_RXFEED_frame_ok :
    look (exec (.rxFeed 0x17) (inFrame [0x88, 0x00, 0x01, 0xCB])) (·.regValue .RXSTAT) = some 0x00030110 := by
  decide

/-- V150: `SEQ` wraps. -/
theorem test_RXFEED_aborted_wraps :
    look (exec (.rxFeed 0x01) { inFrame [] with seq := 0xFF, evt := .aborted }) (·.regValue .RXSTAT) =
      some 0x00000051 := by decide

/-- R204: "after `wrb BUF+5, 0x88`, `rdb BUF+5` returns `0x88`". -/
theorem test_BUF_READB : look (exec (.bufReadB 5) (withBuf 5 [0x88])) (·.resp) = some (.byte 0x88) := by decide

/-- R205: "`BUF[0..4) = [0x88, 0x00, 0x01, 0xCB]` reads as `0xCB010088`". -/
theorem test_BUF_READW :
    look (exec (.bufReadW 0) (withBuf 0 [0x88, 0x00, 0x01, 0xCB])) (·.resp) = some (.word 0xCB010088) := by
  decide

/-- V171. -/
theorem test_BUF_WRITEB :
    look (exec (.bufWriteB 1 0x5A) (withBuf 0 [0x88, 0x00, 0x01, 0xCB]))
      (fun t => (List.range 4).map fun k => t.buf.read? k) =
      some [some 0x88, some 0x5A, some 0x01, some 0xCB] := by decide

/-- V170. -/
theorem test_BUF_WRITEW :
    look (exec (.bufWriteW 0 0xCB010088) State.reset) (fun t => (List.range 5).map fun k => t.buf.read? k) =
      some [some 0x88, some 0x00, some 0x01, some 0xCB, none] := by decide

/-- R208: "after the `FRAME_OK` ..., `rdb RXBUF+0` returns `0x88`". -/
theorem test_RXBUF_READB :
    look (exec (.rxbufReadB 0) (inFrame [0x88, 0x00, 0x01, 0xCB])) (·.resp) = some (.byte 0x88) := by decide

/-- R209: "`rdw RXBUF+0` returns `0xCB010088`". -/
theorem test_RXBUF_READW :
    look (exec (.rxbufReadW 0) (inFrame [0x88, 0x00, 0x01, 0xCB])) (·.resp) = some (.word 0xCB010088) := by
  decide

/-- V173, V180. -/
theorem test_window_ends :
    exec (.bufReadB 0x400) State.reset = .fault .pastWindow ∧
    exec (.rxbufReadB 0x100) State.reset = .fault .pastWindow := by exact ⟨rfl, rfl⟩

set_option maxRecDepth 20000 in
/-- 00_scope.md R11 with 93_implementation_defined.md: TOY rejects 62464 upper halves (V61), here its 3072 rows. -/
theorem test_TOY_rows : Config.ref.params.packRows.length = 3072 := by decide

/-! ## Witnesses: for each statement with hypotheses, states and operands that meet them, clause by clause -/

/-- A state with the host's next transaction. -/
def pending (t : Transaction) : State := { State.reset with host := [.bus t] }

theorem witness_DecodeEncode :
    (Instr.regWrite .STATUS 7).patternOk = true ∧ (Instr.bufReadW 0x3FFC).patternOk = true ∧
    (Instr.bufWriteW 0 1).patternOk = true ∧ (Instr.crcByte 0xFF).patternOk = true := by decide

theorem witness_IllegalCommandWords :
    ∀ w ∈ ([0x00000004, 0x000000FF, 0x00010000, 0xFFFF0030] : List Word), ∀ c, decodeCommand w ≠ .ok c := by
  intro w hw
  simp only [List.mem_cons, List.not_mem_nil, or_false] at hw
  obtain rfl | rfl | rfl | rfl := hw <;> intro c h <;> cases h

theorem witness_CommandWrite :
    decodeCommand 0x0000FF00 = .ok .nop ∧ decodeCommand 0x00000031 = .error (.unlistedOpcode 0x31) := by decide

theorem witness_BusRows :
    Reg.STATUS ≠ .CMD ∧ Reg.STATUS ≠ .RXDATA ∧ (0 : BitVec 14).toNat % 4 = 0 ∧
    (0x3FFC : BitVec 14).toNat % 4 = 0 := by decide

theorem witness_StepRunsTransaction :
    (pending ⟨.write, .word, 0x0030, 0x17⟩).host = .bus ⟨.write, .word, 0x0030, 0x17⟩ :: [] ∧
    decode (.bus ⟨.write, .word, 0x0030, 0x17⟩) = .ok (.rxFeed 0x17) ∧
    ({ State.reset with host := [.reset] } : State).host = .reset :: [] ∧ State.reset.host = [] := by
  exact ⟨rfl, by decide, rfl, rfl⟩

theorem witness_StepRunsCommandWord :
    (pending ⟨.write, .word, 0x0000, 0x8802⟩).host = .bus ⟨.write, .word, 0x0000, 0x8802⟩ :: [] ∧
    decode (.cmd32 0x8802) = .ok (.crcByte 0x88) := by exact ⟨rfl, by decide⟩

/-- Clause of the legal accesses, at the ends of each region of REF. -/
theorem witness_BusFaults_legal :
    Transaction.Legal .ref ⟨.read, .word, 0x003C, 0⟩ ∧ Transaction.Legal .ref ⟨.write, .byte, 0x43FF, 0⟩ ∧
    Transaction.Legal .ref ⟨.read, .word, 0x43FC, 0⟩ ∧ Transaction.Legal .ref ⟨.read, .byte, 0x80FF, 0⟩ ∧
    Transaction.Legal .ref ⟨.read, .word, 0x80FC, 0⟩ := by
  exact ⟨⟨by decide, .inl (by decide)⟩, .inl (by decide), ⟨by decide, .inr (.inl (by decide))⟩,
    .inr ⟨rfl, by decide⟩, ⟨by decide, .inr (.inr ⟨rfl, by decide⟩)⟩⟩

/-- Clause of the bus faults, at the ends of each region of REF. -/
theorem witness_BusFaults_illegal :
    ¬ Transaction.Legal .ref ⟨.read, .word, 0x0040, 0⟩ ∧ ¬ Transaction.Legal .ref ⟨.read, .byte, 0x0000, 0⟩ ∧
    ¬ Transaction.Legal .ref ⟨.write, .byte, 0x4400, 0⟩ ∧ ¬ Transaction.Legal .ref ⟨.read, .word, 0x4400, 0⟩ ∧
    ¬ Transaction.Legal .ref ⟨.read, .word, 0x4002, 0⟩ ∧ ¬ Transaction.Legal .ref ⟨.read, .byte, 0x8100, 0⟩ ∧
    ¬ Transaction.Legal .ref ⟨.write, .byte, 0x8000, 0⟩ ∧ ¬ Transaction.Legal .ref ⟨.read, .half, 0x4000, 0⟩ := by
  have hb : Config.ref.params.bufSize = 1024 := rfl
  have hx : Config.ref.params.rxMax = 256 := rfl
  simp [Transaction.Legal, hb, hx]

theorem witness_LegalProgramsRun :
    ∀ e ∈ ({ State.reset with host := [.reset, feedEvent 0x01, .bus ⟨.read, .byte, 0x43FF, 0⟩] } : State).host,
      e.Legal State.reset.cfg := by
  intro e he
  simp only [List.mem_cons, List.not_mem_nil, or_false] at he
  obtain rfl | rfl | rfl := he
  · trivial
  · exact ⟨by decide, .inl (by decide)⟩
  · exact Or.inl (by decide)

/-- Also of HardwiredRegisters. -/
theorem witness_StepTakesOneEvent :
    step (pending ⟨.write, .word, 0x0038, 0xFFFFFFFF⟩) = .next { State.reset with resp := .done } := by rfl

theorem witness_ResetValues :
    ({ State.reset with host := [.reset], crc := 3 } : State).host = .reset :: [] := by rfl

theorem witness_UnwrittenBytesAreFree :
    (0x3FF : BitVec 14).toNat < State.reset.cfg.params.bufSize ∧
    State.reset.buf.read? (0x3FF : BitVec 14).toNat = none ∧
    (0xFF : BitVec 14).toNat < State.reset.cfg.params.rxMax ∧
    State.reset.rxbuf.read? (0xFF : BitVec 14).toNat = none ∧
    ((0x3FC : BitVec 14).toNat % 4 = 0 ∧ (0x3FC : BitVec 14).toNat + 3 < State.reset.cfg.params.bufSize ∧
      State.reset.buf.read? ((0x3FC : BitVec 14).toNat + 3) = none) ∧
    ((0xFC : BitVec 14).toNat % 4 = 0 ∧ (0xFC : BitVec 14).toNat + 3 < State.reset.cfg.params.rxMax ∧
      State.reset.rxbuf.read? ((0xFC : BitVec 14).toNat + 3) = none) := by decide

/-- A state of the invariant with bytes in both memories and a frame in progress, and its step; also of
ResultHighBitsZero. -/
theorem witness_StepKeepsInv :
    ({ inFrame [0x88] with buf := [(1023, 0x5A)], host := [feedEvent 0x10], evt := .aborted, seq := 1 } : State).Inv ∧
    step { inFrame [0x88] with buf := [(1023, 0x5A)], host := [feedEvent 0x10], evt := .aborted, seq := 1 } =
      .next { inFrame [0x88] with buf := [(1023, 0x5A)], evt := .aborted, seq := 1, rxState := .inEscape,
                                  resp := .done } := by
  refine ⟨⟨by decide, by decide, by decide, by decide, by decide, ?_, by decide, by decide, by decide⟩, rfl⟩
  intro a ha
  have h : a < 1 := ha
  obtain rfl : a = 0 := by omega
  decide

theorem witness_EveryLayoutIsAnInstance :
    ([0x01] : List Byte) ≠ [] ∧ ([0x00] : List Byte) ≠ [] ∧ ([0x01] : List Byte).Nodup ∧ ([0x00] : List Byte).Nodup ∧
    ∀ g ∈ ([0x01] : List Byte), ∀ m ∈ ([0x00] : List Byte), ∀ g' ∈ ([0x01] : List Byte), ∀ m' ∈ ([0x00] : List Byte),
      ∀ b b' : Byte, (b.setWidth 16 : Half) = b'.setWidth 16 → g = g' ∧ m = m' ∧ b = b' := by
  refine ⟨by decide, by decide, by decide, by decide, ?_⟩
  intro g hg m hm g' hg' m' hm' b b' h
  simp only [List.mem_singleton] at hg hm hg' hm'
  refine ⟨hg.trans hg'.symm, hm.trans hm'.symm, BitVec.eq_of_toNat_eq ?_⟩
  have h := congrArg BitVec.toNat h
  have h1 := b.isLt
  have h2 := b'.isLt
  simp only [BitVec.toNat_setWidth] at h
  omega

/-- Both clauses at the bound; also of EscSizeEffect (V27, V28). -/
theorem witness_CrcRangeEffect :
    (withRange 0 [] 1024 0 0 0).SrcOK ∧ (withRange 0 [] 1023 1 0 0).SrcOK ∧ ¬ (withRange 0 [] 1023 2 0 0).SrcOK := by
  decide

theorem witness_CrcStepAndSequence :
    ∃ shift : Byte → Byte, ∀ x, shift x = if x &&& 0x01 = 0x01 then (x >>> 1) ^^^ 0x8C else x >>> 1 :=
  ⟨_, fun _ => rfl⟩

/-- Both clauses; also of IdRoundTrip (V50, V53, V54). -/
theorem witness_IdEncodeEffect :
    ((0x0A : Byte) ∈ Config.ref.params.groups ∧ (0x03 : Byte) ∈ Config.ref.params.modes) ∧
    ¬ ((0x03 : Byte) ∈ Config.ref.params.groups ∧ (0x02 : Byte) ∈ Config.ref.params.modes) ∧
    ¬ ((0x0A : Byte) ∈ Config.ref.params.groups ∧ (0x04 : Byte) ∈ Config.ref.params.modes) := by decide

set_option maxRecDepth 20000 in
/-- The clause of a packed upper half; also of PackIsInjectiveFunction (V55). -/
theorem witness_IdDecodeEffect_known :
    canidPack Config.ref.params 0x0A 0x02 0x05 = some (((0x2A05CAFE : Word) >>> 16).setWidth 16) := by decide

set_option maxRecDepth 20000 in
/-- The clause of an upper half that is packed of no triple (V58). -/
theorem witness_IdDecodeEffect_unknown :
    ∀ g m c : Byte, canidPack Config.ref.params g m c ≠ some (((0x00001234 : Word) >>> 16).setWidth 16) := by
  have h : ∀ r ∈ Config.ref.params.packRows, r.code ≠ ((0x00001234 : Word) >>> 16).setWidth 16 := by decide
  intro g m c hp
  simp only [canidPack, Option.map_eq_some_iff] at hp
  obtain ⟨r, hr, hc⟩ := hp
  exact h r (List.mem_of_find?_eq_some hr) hc

set_option maxRecDepth 20000 in
theorem witness_IdRoundTrip :
    canidDecode Config.ref.params 0x2A05CAFE = some (0x0A, 0x02, 0x05, 0xCAFE) ∧
    look (exec .idEncode { State.reset with idGroup := 0x0A, idMode := 3 }) (fun t => decide (t.err = .ok)) =
      some true := by decide

theorem witness_SenderIsLowerHalf :
    look (exec .idEncode { State.reset with idGroup := 0x01 }) (·.err) = some .ok ∧
    look (exec .idDecode { State.reset with canid := 0x0400BABE }) (·.err) = some .ok := by decide

theorem witness_IdCapacity : (0x2A05CAFE : Word) >>> 16 = (0x2A05FFFF : Word) >>> 16 := by decide

theorem witness_EscapeEquations :
    (isSentinel Config.ref.params 0x01 ∧ isSentinel Config.ref.params 0x17 ∧ isSentinel Config.ref.params 0x10) ∧
    ¬ isSentinel Config.ref.params 0x00 := by decide

theorem witness_UnescapeEquations : (0x01 : Byte) ≠ Config.ref.params.dle := by decide

theorem witness_StuffingLaws :
    Machine.escape Config.ref.params [0x00, 0x01] = [0x00] ++ Config.ref.params.dle :: [0x21] := by decide

/-- The premise that the source reads as given bytes, of EscapeEffect, UnescapeEffect, FrameEffect, and the bytes of a
received frame of RxFeedTable: one byte before the range and one after it hold other values. -/
theorem witness_Reads :
    (withRange 7 [0xEE, 0x00, 0x10, 0x02, 0x17, 0xEE] 8 4 0x10 5).ReadsSource [0x00, 0x10, 0x02, 0x17] ∧
    Reads (inFrame [0x88, 0x00, 0x01, 0xCB]).rxbuf 0 4 9 [0x88, 0x00, 0x01, 0xCB] := by decide

/-- Bytes that nothing has written read as the free bytes of their draws. -/
theorem witness_Reads_unwritten (d : Nat) :
    Reads [(5, 0x5A)] 4 3 d [Config.freeByte d, 0x5A, Config.freeByte (d + 2)] := by
  refine ⟨rfl, fun k hk => ?_⟩
  match k, hk with
  | 0, _ | 1, _ | 2, _ => rfl

/-- Clauses of EscapeEffect: out of range (V109), overlapping (V108), one byte too small (V104), just fitting (V103). -/
theorem witness_EscapeEffect :
    ¬ (withRange 0 [0x00, 0x10, 0x02, 0x17] 0 4 1020 8).DstOK ∧
    ¬ (withRange 0 [0x00, 0x10, 0x02, 0x17] 0 4 3 8).Disjoint ∧
    (let s := withRange 0 [0x00, 0x10, 0x02, 0x17] 0 4 0x10 5
     (s.SrcOK ∧ s.DstOK ∧ s.Disjoint) ∧ s.ReadsSource [0x00, 0x10, 0x02, 0x17] ∧
       s.cap.toNat < (Machine.escape s.cfg.params [0x00, 0x10, 0x02, 0x17]).length) ∧
    (let s := withRange 0 [0x00, 0x10, 0x02, 0x17] 0 4 0x10 6
     (s.SrcOK ∧ s.DstOK ∧ s.Disjoint) ∧ s.ReadsSource [0x00, 0x10, 0x02, 0x17] ∧
       (Machine.escape s.cfg.params [0x00, 0x10, 0x02, 0x17]).length ≤ s.cap.toNat) := by
  decide

/-- Clauses of UnescapeEffect: out of range (V111), truncated (V112), too small (V113), fitting (V110). -/
theorem witness_UnescapeEffect :
    ¬ (withRange 0x10 [0x00] 0x10 6 0x12 8).Disjoint ∧
    (let s := withRange 0x14 [0x10] 0x14 1 0x30 0
     (s.SrcOK ∧ s.DstOK ∧ s.Disjoint) ∧ s.ReadsSource [0x10] ∧ Machine.unescape s.cfg.params [0x10] = none) ∧
    (let s := withRange 0x15 [0x37] 0x15 1 0x30 0
     (s.SrcOK ∧ s.DstOK ∧ s.Disjoint) ∧ s.ReadsSource [0x37] ∧ Machine.unescape s.cfg.params [0x37] = some [0x37] ∧
       s.cap.toNat < [0x37].length) ∧
    (let s := withRange 0x15 [0x37] 0x15 1 0x30 1
     (s.SrcOK ∧ s.DstOK ∧ s.Disjoint) ∧ s.ReadsSource [0x37] ∧ Machine.unescape s.cfg.params [0x37] = some [0x37] ∧
       [0x37].length ≤ s.cap.toNat) := by
  decide

set_option maxRecDepth 20000 in
/-- Clauses of FrameEffect: out of range, too small (V116), just fitting (V117). -/
theorem witness_FrameEffect :
    ¬ (withRange 0 [] 1022 3 0 0).SrcOK ∧
    (let s := withRange 0 [0x88, 0x00, 0x01] 0 3 0x100 6
     (s.SrcOK ∧ s.DstOK ∧ s.Disjoint) ∧ s.ReadsSource [0x88, 0x00, 0x01] ∧
       s.cap.toNat < (Machine.frame s.cfg.params s.seed [0x88, 0x00, 0x01]).length) ∧
    (let s := withRange 0 [0x88, 0x00, 0x01] 0 3 0x100 7
     (s.SrcOK ∧ s.DstOK ∧ s.Disjoint) ∧ s.ReadsSource [0x88, 0x00, 0x01] ∧
       (Machine.frame s.cfg.params s.seed [0x88, 0x00, 0x01]).length ≤ s.cap.toNat) := by
  decide

theorem witness_FailureChangesOnlyErr :
    isCommand .crcRange = true ∧ look (exec .crcRange (withRange 0 [] 1023 2 0 0)) (·.err) = some .rangeError := by
  decide

theorem witness_ErrWrittenByCommandsOnly :
    isCommand .nop = true ∧ (Instr.rxFeed 0x17).patternOk = true ∧ isCommand (.rxFeed 0x17) = false ∧
    look (exec (.rxFeed 0x17) State.reset) (·.err) = some .ok := by decide

/-- Clauses of RxFeedTable: each state, each class of byte, and both sides of the overflow bound. -/
theorem witness_RxFeedTable :
    State.reset.rxState = .idle ∧ (inFrame [0x88]).rxState = .inFrame ∧
    ({ inFrame [0x88] with rxState := .inEscape } : State).rxState ≠ .idle ∧
    ¬ isSentinel Config.ref.params 0x88 ∧ (0x10 : Byte) ≠ Config.ref.params.soh ∧ (0x10 : Byte) ≠ Config.ref.params.eot ∧
    ({ inFrame [] with rxLen := 256 } : State).rxLen.toNat = Config.ref.params.rxMax ∧
    ({ inFrame [] with rxLen := 255 } : State).rxLen.toNat ≠ Config.ref.params.rxMax := by decide

/-- A payload of one sentinel, whose frame is V92, and the greatest length that fits. -/
theorem witness_FrameIsAccepted :
    (([0x10] : List Byte).length + 1 ≤ State.reset.cfg.params.rxMax ∧
      ({ State.reset with host := [0x01, 0x10, 0x30, 0xA8, 0x17].map feedEvent } : State).host =
        (Machine.frame State.reset.cfg.params State.reset.seed [0x10]).map feedEvent ++ []) ∧
    (List.replicate 255 (0x10 : Byte)).length + 1 ≤ Config.ref.params.rxMax := by
  refine ⟨⟨by decide, ?_⟩, by simp only [List.length_replicate]; decide⟩
  have h : Machine.frame State.reset.cfg.params State.reset.seed [0x10] = [0x01, 0x10, 0x30, 0xA8, 0x17] := by
    decide
  rw [h]
  rfl

theorem witness_IdleDropsUntilSoh :
    State.reset.rxState = .idle ∧ State.reset.cfg.params.soh ∉ ([0x00, 0x17, 0x10] : List Byte) ∧
    ({ State.reset with host := [feedEvent 0x00, feedEvent 0x17, feedEvent 0x10] } : State).host =
      ([0x00, 0x17, 0x10] : List Byte).map feedEvent ++ [] := by exact ⟨rfl, by decide, rfl⟩

theorem witness_OnlySeedIsShared : Command.frame ≠ .rxReset := by decide

theorem witness_RegisterWrite : Reg.SENDER ≠ .CMD ∧ Reg.SENDER ≠ .RXDATA ∧ Reg.SIZES ≠ .CMD ∧ Reg.SIZES ≠ .RXDATA := by
  decide

/-- Every clause at its bound; also of BufWrites. -/
theorem witness_BufReads :
    (0x3FF : BitVec 14).toNat < Config.ref.params.bufSize ∧ Config.ref.params.bufSize ≤ (0x400 : BitVec 14).toNat ∧
    ((0x3FC : BitVec 14).toNat % 4 = 0 ∧ (0x3FC : BitVec 14).toNat + 3 < Config.ref.params.bufSize) ∧
    (0x3FD : BitVec 14).toNat % 4 ≠ 0 ∧
    ((0x400 : BitVec 14).toNat % 4 = 0 ∧ Config.ref.params.bufSize ≤ (0x400 : BitVec 14).toNat + 3) := by decide

/-- Every clause at its bound. -/
theorem witness_RxbufReads :
    (0xFF : BitVec 14).toNat < Config.ref.params.rxMax ∧ Config.ref.params.rxMax ≤ (0x100 : BitVec 14).toNat ∧
    ((0xFC : BitVec 14).toNat % 4 = 0 ∧ (0xFC : BitVec 14).toNat + 3 < Config.ref.params.rxMax) ∧
    (0xFD : BitVec 14).toNat % 4 ≠ 0 ∧
    ((0x100 : BitVec 14).toNat % 4 = 0 ∧ Config.ref.params.rxMax ≤ (0x100 : BitVec 14).toNat + 3) := by decide

theorem witness_BufReadAfterWrite :
    look (exec (.bufWriteW 0x3FC 0xCB010088) State.reset) (·.err) = some .ok ∧
    look (exec (.bufWriteB 0x3FF 0x5A) State.reset) (·.err) = some .ok ∧
    ((0x3FC : BitVec 14).toNat % 4 = 0 ∧ (0x3FC : BitVec 14).toNat + 3 < State.reset.cfg.params.bufSize ∧
      (0x3FC : BitVec 14).toNat ≤ (0x3FF : BitVec 14).toNat ∧
      (0x3FF : BitVec 14).toNat < (0x3FC : BitVec 14).toNat + 4) := by decide

theorem witness_WhoWritesWhat :
    (Instr.regWrite .SEED 1).patternOk = true ∧ (∀ w, Instr.regWrite .SEED 1 ≠ .cmdWrite w) ∧
    look (exec (.regWrite .SEED 1) State.reset) (·.seed) = some 1 := by
  exact ⟨by decide, fun _ => Instr.noConfusion, by decide⟩

theorem witness_PseudoSeed : State.reset.host = [] := by rfl

end Sys2Proof.Tests
end

section
/-! PROOFS. The parameters of an instance: `CANID_PACK` and the CRC polynomial (00_scope.md R2, R5, R6, R11). -/

namespace Sys2Proof.Machine

/-! ## CANID_PACK as a function of its domain -/

/-- `CANID_PACK` has a value exactly on `GROUP_SET × MODE_SET × {0..255}` (00_scope.md R6). -/
theorem exists_canidPack_eq_some_iff (c : Config) (g m b : Byte) :
    (∃ u, canidPack c.params g m b = some u) ↔ g ∈ c.params.groups ∧ m ∈ c.params.modes := by
  simp only [canidPack_eq_some_iff]
  constructor
  · rintro ⟨u, hrow⟩
    exact c.valid.canid.domain _ hrow
  · rintro ⟨hg, hm⟩
    obtain ⟨r, hrow, rfl, rfl, rfl⟩ := c.valid.canid.total g hg m hm b
    exact ⟨r.code, hrow⟩

/-- `CANID_PACK` is inverted by the lookup of the triple (41_canid.md R122). -/
theorem canidUnpack_of_canidPack {c : Config} {g m b : Byte} {u : Half}
    (h : canidPack c.params g m b = some u) : canidUnpack c.params u = some (g, m, b) :=
  (canidUnpack_eq_some_iff c g m b u).2 ((canidPack_eq_some_iff c g m b u).1 h)

/-- Triples with one `CANID_PACK` are equal, because that value has one inverse. -/
theorem canidPack_injective {c : Config} {g m b g' m' b' : Byte} {u : Half}
    (h : canidPack c.params g m b = some u) (h' : canidPack c.params g' m' b' = some u) :
    g = g' ∧ m = m' ∧ b = b' := by
  have htriple : some (g, m, b) = some (g', m', b') :=
    (canidUnpack_of_canidPack h).symm.trans (canidUnpack_of_canidPack h')
  simpa only [Option.some.injEq, Prod.mk.injEq] using htriple

/-- Settles O20: the domain from the rows of the graph, injectivity from the inverse lookup. -/
theorem packIsInjectiveFunction : Obligations.PackIsInjectiveFunction := fun c =>
  ⟨c.valid.canid.groups_ne, c.valid.canid.modes_ne, exists_canidPack_eq_some_iff c,
    fun _ _ _ _ _ _ _ => canidPack_injective⟩

/-! ## Every layout as an instance -/

/-- The row of each triple of the domain stands in the graph of `f`. -/
theorem mem_packGraph {groups modes : List Byte} (f : Byte → Byte → Byte → Half) {g m : Byte}
    (hg : g ∈ groups) (hm : m ∈ modes) (b : Byte) : ⟨g, m, b, f g m b⟩ ∈ packGraph groups modes f := by
  simp only [packGraph, List.mem_flatMap, List.mem_map, List.mem_range]
  exact ⟨g, hg, m, hm, b.toNat, b.isLt, by rw [BitVec.ofNat_toNat, BitVec.setWidth_eq]⟩

/-- The numbers and sentinels of `REF` with the identifiers of the layout `f` on `groups` and `modes`. -/
def refParamsWithLayout (groups modes : List Byte) (f : Byte → Byte → Byte → Half) : Params :=
  { Config.ref.params with groups := groups, modes := modes, packRows := packGraph groups modes f }

/-- The constraints on numbers and sentinels do not speak of the identifiers, so they hold as in `REF`. -/
theorem refParamsWithLayout_valid {groups modes : List Byte} {f : Byte → Byte → Byte → Half}
    (h : (refParamsWithLayout groups modes f).CanidOk) : (refParamsWithLayout groups modes f).Valid :=
  ⟨Config.ref.valid.numbers, Config.ref.valid.sentinels, h⟩

/-- Settles O21: the instance is `REF` with the graph of the layout in the place of `TOY`'s. -/
theorem everyLayoutIsAnInstance : Obligations.EveryLayoutIsAnInstance := by
  intro groups modes f hgroups hmodes hgroupsNodup hmodesNodup hinj
  have hcanid : (refParamsWithLayout groups modes f).CanidOk :=
    packGraph_canidOk hgroups hmodes hgroupsNodup hmodesNodup rfl hinj
  refine ⟨⟨refParamsWithLayout groups modes f, refParamsWithLayout_valid hcanid⟩, rfl, rfl, ?_⟩
  intro g hg m hm b
  exact (canidPack_eq_some_iff _ g m b _).2 (mem_packGraph f hg hm b)

/-! ## The CRC polynomial -/

set_option maxRecDepth 20000 in
/-- The exhaustive evaluation of R100 over all 256 polynomials that 00_scope.md R2 cites. -/
theorem crc8_sourceVector_iff :
    ∀ poly : Byte, crc8 poly 0xFF [0x88, 0x00, 0x01] = 0xCB ↔ poly = 0x8C ∨ poly = 0xB5 := by
  decide

/-- Settles O18: the evaluation of the vector, and the constraint that an instance carries. -/
theorem crcPolynomials : Obligations.CrcPolynomials :=
  ⟨crc8_sourceVector_iff, fun c => c.valid.numbers.1⟩

end Sys2Proof.Machine
end

section
/-! PROOFS. What each meaning can do, once, guards included: the commands with a failure, and the host's register writes. -/

namespace Sys2Proof.Machine

variable {s t : State}

/-- CRC_RANGE: a range error, or the CRC of the source range loaded (40_crc.md R107). -/
theorem execCrcRange_cases (s : State) :
    (¬ s.SrcOK ∧ execCrcRange s = .next (s.raise .rangeError))
      ∨ (s.SrcOK ∧ execCrcRange s =
          .next (s.sourceRead.loadCrc (crc8 s.cfg.params.crcPoly s.crc s.sourceBytes))) := by
  by_cases h : s.SrcOK
  · exact .inr ⟨h, if_pos h⟩
  · exact .inl ⟨h, if_neg h⟩

/-- ESC_SIZE: a range error, or the escaped size of the source range in `RESULT` (42_stuffing.md R150). -/
theorem execEscSize_cases (s : State) :
    (¬ s.SrcOK ∧ execEscSize s = .next (s.raise .rangeError))
      ∨ (s.SrcOK ∧ execEscSize s =
          .next (s.sourceRead.finish (BitVec.ofNat 32 (escapedSize s.cfg.params s.sourceBytes)))) := by
  by_cases h : s.SrcOK
  · exact .inr ⟨h, if_pos h⟩
  · exact .inl ⟨h, if_neg h⟩

/-- ID_ENCODE: an unknown encoding, or the identifier in `CANID` (41_canid.md R123). -/
theorem execIdEncode_cases (s : State) :
    ((s.idGroup ∈ s.cfg.params.groups ∧ s.idMode ∈ s.cfg.params.modes →
          canidEncode s.cfg.params s.idGroup s.idMode s.idCommand s.sender = none)
        ∧ execIdEncode s = .next (s.raise .unknownEncoding))
      ∨ ((s.idGroup ∈ s.cfg.params.groups ∧ s.idMode ∈ s.cfg.params.modes)
        ∧ ∃ w, canidEncode s.cfg.params s.idGroup s.idMode s.idCommand s.sender = some w
          ∧ execIdEncode s = .next { s with canid := w }.succeed) := by
  unfold execIdEncode
  split
  · rename_i hdomain
    cases canidEncode s.cfg.params s.idGroup s.idMode s.idCommand s.sender with
    | none => exact .inl ⟨fun _ => rfl, rfl⟩
    | some w => exact .inr ⟨hdomain, w, rfl, rfl⟩
  · rename_i hdomain
    exact .inl ⟨fun h => absurd h hdomain, rfl⟩

/-- ID_DECODE: an unknown encoding, or the fields of `CANID` in `IDF` and `SENDER` (41_canid.md R124). -/
theorem execIdDecode_cases (s : State) :
    (canidDecode s.cfg.params s.canid = none ∧ execIdDecode s = .next (s.raise .unknownEncoding))
      ∨ ∃ g m c a, canidDecode s.cfg.params s.canid = some (g, m, c, a)
          ∧ execIdDecode s = .next { s with idGroup := g, idMode := m, idCommand := c, sender := a }.succeed := by
  unfold execIdDecode
  cases canidDecode s.cfg.params s.canid with
  | none => exact .inl ⟨rfl, rfl⟩
  | some fields => obtain ⟨g, m, c, a⟩ := fields; exact .inr ⟨g, m, c, a, rfl, rfl⟩

/-- REG_WRITE: the bus writes of `CMD` and `RXDATA` have their own effect, every other register stores. -/
theorem execRegWrite_cases (r : Reg) (v : Word) (s : State) :
    (r = .CMD ∧ execRegWrite r v s = execCmdWrite v s)
      ∨ (r = .RXDATA ∧ execRegWrite r v s = .next (s.feed (v.extractLsb' 0 8)))
      ∨ (r ≠ .CMD ∧ r ≠ .RXDATA ∧ execRegWrite r v s = .next (s.regStore v r)) := by
  cases r with
  | CMD => exact .inl ⟨rfl, rfl⟩
  | RXDATA => exact .inr (.inl ⟨rfl, rfl⟩)
  | _ => exact .inr (.inr ⟨Reg.noConfusion, Reg.noConfusion, rfl⟩)

/-- The REG_WRITE rows of the table only store (30_encoding.md R83). -/
theorem exec_regWrite_of_patternOk {r : Reg} {v : Word} (hp : (Instr.regWrite r v).patternOk = true) (s : State) :
    exec (.regWrite r v) s = .next (s.regStore v r) := by
  obtain ⟨hcmd, hrx⟩ : r ≠ .CMD ∧ r ≠ .RXDATA := of_decide_eq_true hp
  rcases execRegWrite_cases r v s with ⟨h, -⟩ | ⟨h, -⟩ | ⟨-, -, h⟩
  · exact absurd h hcmd
  · exact absurd h hrx
  · exact h

end Sys2Proof.Machine
end

section
/-! PROOFS. The invariant of the state: what each named update needs to keep it, and that every step keeps it
(10_state.md R30, R42 to R46; 43_deframer.md R186). -/

namespace Sys2Proof.Machine

variable {s t : State}

/-! ## The invariant under the named updates -/

theorem State.Inv.raise (h : s.Inv) (e : ErrCode) : (s.raise e).Inv := { h with }

theorem State.Inv.succeed (h : s.Inv) : s.succeed.Inv := { h with }

theorem State.Inv.drawn (h : s.Inv) (n : Nat) : (s.drawn n).Inv := { h with }

theorem State.Inv.respond (h : s.Inv) (r : BusResponse) : (s.respond r).Inv := { h with }

theorem State.Inv.accept (h : s.Inv) (rest : List HostEvent) : (s.accept rest).Inv := { h with }

theorem State.Inv.finish (h : s.Inv) {v : Word} (hv : v.toNat ≤ 2 * 16384 + 2) : (s.finish v).Inv :=
  { h with resultBound := hv }

/-- A result given as a number within the bound does not wrap. -/
theorem State.Inv.finish_ofNat (h : s.Inv) {n : Nat} (hn : n ≤ 2 * 16384 + 2) :
    (s.finish (BitVec.ofNat 32 n)).Inv :=
  h.finish (by rw [BitVec.toNat_ofNat]; omega)

/-- A CRC value is far below the bound of `RESULT`. -/
theorem State.Inv.loadCrc (h : s.Inv) (c : Byte) : (s.loadCrc c).Inv := by
  have hc := c.isLt
  have hcrc : ({ s with crc := c } : State).Inv := { h with }
  exact hcrc.finish (by rw [BitVec.toNat_setWidth]; omega)

theorem State.Inv.regStore (h : s.Inv) (v : Word) (r : Reg) : (s.regStore v r).Inv := by
  cases r <;> exact { h with }

/-- Bytes stored inside `BUF`. -/
theorem State.Inv.storeBuf (h : s.Inv) {a : Nat} {out : List Byte} (ha : a + out.length ≤ s.cfg.params.bufSize) :
    ({ s with buf := s.buf.writeAll a out } : State).Inv :=
  { h with
    bufWf := Memory.writeAll_wf h.bufWf
    bufInside := Memory.writeAll_inside h.bufInside ha }

/-- The state after a reset meets the invariant on every configuration: nothing is stored and every count is 0. -/
theorem State.resetOf_inv (c : Config) : (State.resetOf c).Inv where
  bufWf := Memory.wf_nil
  rxbufWf := Memory.wf_nil
  bufInside := fun _ h => absurd h List.not_mem_nil
  rxbufInside := fun _ h => absurd h List.not_mem_nil
  rxLenBound := Nat.zero_le _
  rxWritten := fun a h => absurd h (Nat.not_lt_zero a)
  surfaced := fun _ h => absurd rfl h
  noEvent := fun _ => rfl
  resultBound := Nat.zero_le _

theorem State.applyReset_inv (s : State) : s.applyReset.Inv := { State.resetOf_inv s.cfg with }

/-! ## The deframer -/

/-- A deframer that counts no byte: nothing has to be written or surfaced, whatever its state and last event. -/
theorem State.Inv.emptyFrame (h : s.Inv) (x : RxState) {e : RxEvent} {q : Byte} (he : e = .none → q = 0) :
    ({ s with rxState := x, rxLen := 0, evt := e, seq := q } : State).Inv :=
  { h with
    rxLenBound := Nat.zero_le _
    rxWritten := fun a ha => absurd ha (Nat.not_lt_zero a)
    surfaced := fun _ hlen => absurd rfl hlen
    noEvent := he }

/-- A frame in progress may change its state: only `Idle` surfaces a length. -/
theorem State.Inv.inProgress (h : s.Inv) {x : RxState} (hx : x ≠ .idle) : ({ s with rxState := x } : State).Inv :=
  { h with surfaced := fun hidle => absurd hidle hx }

/-- A byte appended inside a frame: at `RX_MAX` the frame is dropped; below it the count does not wrap, because `RX_MAX`
is at most 16384 (00_scope.md R8), and the byte it now counts has been written. -/
theorem State.Inv.append (h : s.Inv) (hx : s.rxState ≠ .idle) (v : Byte) : (s.append v).Inv := by
  rcases s.append_cases v with ⟨-, e⟩ | ⟨hfull, e⟩ <;> rw [e]
  · exact h.emptyFrame .idle nofun
  · have hbound := h.rxLenBound
    have hmax : s.cfg.params.rxMax ≤ 16384 := s.cfg.valid.numbers.2.2.2
    have hlt : s.rxLen.toNat < s.cfg.params.rxMax := by omega
    have hlen : (s.rxLen + 1).toNat = s.rxLen.toNat + 1 := by
      rw [BitVec.toNat_add_of_lt] <;> simp; omega
    exact { h with
      rxbufWf := Memory.write_wf h.rxbufWf
      rxbufInside := Memory.write_inside h.rxbufInside hlt
      rxLenBound := hlen.trans_le hlt
      rxWritten := fun a ha => by
        show ((s.rxbuf.write s.rxLen.toNat v).read? a).isSome
        have ha : a < s.rxLen.toNat + 1 := hlen ▸ ha
        rw [Memory.read?_write]
        split
        · rfl
        · exact h.rxWritten a (by omega)
      surfaced := fun hidle => absurd hidle hx }

/-- The end of a frame: an accepted frame surfaces its length less the checksum, any other leaves nothing. -/
theorem State.Inv.endFrame (h : s.Inv) : s.endFrame.Inv := by
  rcases s.endFrame_cases with ⟨⟨hpos, -⟩, e⟩ | ⟨-, e⟩ <;> rw [e]
  · have hlen : (s.rxLen - 1).toNat = s.rxLen.toNat - 1 := by
      rw [BitVec.toNat_sub_of_le] <;> simp [BitVec.le_def]; omega
    exact { h with
      rxLenBound := hlen.trans_le ((Nat.sub_le _ _).trans h.rxLenBound)
      rxWritten := fun a ha => h.rxWritten a (by have ha : a < (s.rxLen - 1).toNat := ha; omega)
      surfaced := fun _ _ => rfl
      noEvent := nofun }
  · exact (h.drawn _).emptyFrame .idle nofun

/-- One input byte, along the cases of 43_deframer.md R170. -/
theorem State.Inv.feed (h : s.Inv) (b : Byte) : (s.feed b).Inv := by
  rcases s.feed_cases b with ⟨-, -, e⟩ | ⟨-, -, e⟩ | ⟨-, -, e⟩ | ⟨-, -, -, e⟩ | ⟨-, -, -, e⟩ | ⟨-, -, -, e⟩ |
    ⟨hx, -, e⟩ | ⟨-, -, e⟩ <;> rw [e]
  · exact h
  · exact h.emptyFrame .inFrame h.noEvent
  · exact h.emptyFrame .inFrame nofun
  · exact h.endFrame
  · exact h.emptyFrame .idle nofun
  · exact h.inProgress nofun
  · exact h.append (by rw [hx]; nofun) b
  · exact (h.inProgress (x := .inFrame) nofun).append nofun _

/-! ## The commands -/

/-- Escaping at most doubles a length: every byte counts once, and once more if it is a sentinel (42_stuffing.md R143). -/
theorem escapedSize_le (p : Params) (raw : List Byte) : escapedSize p raw ≤ 2 * raw.length := by
  have := List.countP_le_length (p := fun b => decide (isSentinel p b)) (l := raw)
  unfold escapedSize
  omega

/-- The writing commands: an output that is stored fits its capacity, and that lies inside `BUF`. -/
theorem State.Inv.transform (h : s.Inv) (f : List Byte → Except ErrCode (List Byte)) : (s.transform f).Inv := by
  have hsize : s.cfg.params.bufSize ≤ 16384 := s.cfg.valid.numbers.2.1.2
  rcases s.transform_cases f with ⟨-, e⟩ | ⟨-, -, -, err, -, e⟩ | ⟨-, -, -, -, -, -, e⟩ |
    ⟨-, hdst, -, out, -, hfits, e⟩ <;> rw [e]
  · exact h.raise _
  · exact (h.drawn _).raise err
  · exact (h.drawn _).raise _
  · have hdst : s.dst.toNat + s.cap.toNat ≤ s.cfg.params.bufSize := hdst
    have hstored : ({ s.sourceRead with buf := s.buf.writeAll s.dst.toNat out } : State).Inv :=
      (h.drawn s.len.toNat).storeBuf (by show s.dst.toNat + out.length ≤ s.cfg.params.bufSize; omega)
    exact hstored.finish_ofNat (by omega)

theorem State.Inv.runCommand (h : s.Inv) (c : Command) (hrun : runCommand c s = .next t) : t.Inv := by
  cases c with
  | nop => cases hrun; exact h.succeed
  | crcInit => cases hrun; exact h.loadCrc _
  | crcByte imm8 => cases hrun; exact h.loadCrc _
  | crcRange =>
    rcases execCrcRange_cases s with ⟨-, e⟩ | ⟨-, e⟩ <;> cases e.symm.trans hrun
    · exact h.raise _
    · exact (h.drawn _).loadCrc _
  | idEncode =>
    rcases execIdEncode_cases s with ⟨-, e⟩ | ⟨-, w, -, e⟩ <;> cases e.symm.trans hrun
    · exact h.raise _
    · exact { h with }
  | idDecode =>
    rcases execIdDecode_cases s with ⟨-, e⟩ | ⟨g, m, c, a, -, e⟩ <;> cases e.symm.trans hrun
    · exact h.raise _
    · exact { h with }
  | escSize =>
    rcases execEscSize_cases s with ⟨-, e⟩ | ⟨hsrc, e⟩ <;> cases e.symm.trans hrun
    · exact h.raise _
    · have hsrc : s.src.toNat + s.len.toNat ≤ s.cfg.params.bufSize := hsrc
      have hsize : s.cfg.params.bufSize ≤ 16384 := s.cfg.valid.numbers.2.1.2
      have hescaped := escapedSize_le s.cfg.params s.sourceBytes
      have hraw : s.sourceBytes.length = s.len.toNat := Memory.length_bytesAt _ _
      exact (h.drawn _).finish_ofNat (by omega)
  | escape => cases hrun; exact h.transform _
  | unescape => cases hrun; exact h.transform _
  | frame => cases hrun; exact h.transform _
  | rxReset => cases hrun; exact (h.emptyFrame .idle fun _ => rfl).succeed

theorem State.Inv.execCmdWrite (h : s.Inv) {w : Word} (hrun : execCmdWrite w s = .next t) : t.Inv := by
  unfold Machine.execCmdWrite at hrun
  split at hrun
  · exact h.runCommand _ hrun
  · cases hrun; exact h.raise _

/-! ## Every instruction and every step -/

theorem State.Inv.exec (h : s.Inv) (i : Instr) (hrun : exec i s = .next t) : t.Inv := by
  cases i with
  | nop => exact h.runCommand .nop hrun
  | crcInit => exact h.runCommand .crcInit hrun
  | crcByte imm8 => exact h.runCommand (.crcByte imm8) hrun
  | crcRange => exact h.runCommand .crcRange hrun
  | idEncode => exact h.runCommand .idEncode hrun
  | idDecode => exact h.runCommand .idDecode hrun
  | escSize => exact h.runCommand .escSize hrun
  | escape => exact h.runCommand .escape hrun
  | unescape => exact h.runCommand .unescape hrun
  | frame => exact h.runCommand .frame hrun
  | rxReset => exact h.runCommand .rxReset hrun
  | cmdWrite w => exact h.execCmdWrite hrun
  | regRead r => cases hrun; exact h.respond _
  | regWrite r v =>
    rcases execRegWrite_cases r v s with ⟨-, e⟩ | ⟨-, e⟩ | ⟨-, -, e⟩
    · exact h.execCmdWrite (e.symm.trans hrun)
    · cases e.symm.trans hrun; exact h.feed _
    · cases e.symm.trans hrun; exact h.regStore v r
  | rxFeed b => cases hrun; exact h.feed b
  | bufReadB a => obtain ⟨-, rfl⟩ := byteWindow_next_iff.1 hrun; exact (h.drawn 1).respond _
  | bufReadW a => obtain ⟨-, rfl⟩ := wordWindow_next_iff.1 hrun; exact (h.drawn 4).respond _
  | bufWriteB a v =>
    obtain ⟨hin, rfl⟩ := byteWindow_next_iff.1 hrun
    exact h.storeBuf (out := [v]) hin
  | bufWriteW a v =>
    obtain ⟨⟨-, hin⟩, rfl⟩ := wordWindow_next_iff.1 hrun
    exact h.storeBuf (out := bytesOfWord v) hin
  | rxbufReadB a => obtain ⟨-, rfl⟩ := byteWindow_next_iff.1 hrun; exact (h.drawn 1).respond _
  | rxbufReadW a => obtain ⟨-, rfl⟩ := wordWindow_next_iff.1 hrun; exact (h.drawn 4).respond _

/-- Settles O16, by the cases of a step and, at a transaction, of its instruction. -/
theorem stepKeepsInv : Obligations.StepKeepsInv := by
  intro s t h hstep
  rcases step_cases s with ⟨-, e⟩ | ⟨rest, -, e⟩ | ⟨tr, rest, i, -, -, e⟩ | ⟨tr, rest, err, -, -, e⟩
  · cases e.symm.trans hstep; exact h
  · cases e.symm.trans hstep; exact State.applyReset_inv _
  · exact (h.accept rest).exec i (e.symm.trans hstep)
  · cases e.symm.trans hstep

/-- Settles O17: the bound of the invariant is below `2 ^ 17`. -/
theorem resultHighBitsZero : Obligations.ResultHighBitsZero := by
  intro s h
  have hbound := h.resultBound
  apply BitVec.eq_of_toNat_eq
  rw [BitVec.toNat_ushiftRight, Nat.shiftRight_eq_div_pow]
  show s.result.toNat / 2 ^ 17 = 0
  omega

end Sys2Proof.Machine
end

section
/-! PROOFS. `SENT` and `SIZES` never change (10_state.md R37, R38), the status flags are outputs (R25, R47), and which instruction writes which part of the state. -/

namespace Sys2Proof.Machine

variable {s t : State}

/-! ## SENT and SIZES -/

/-- A step never writes the parameters. -/
theorem step_cfg (hstep : step s = .next t) : t.cfg = s.cfg := by
  rcases step_cases s with ⟨-, e⟩ | ⟨rest, -, e⟩ | ⟨tr, rest, i, -, -, e⟩ | ⟨tr, rest, err, -, -, e⟩
  · cases e.symm.trans hstep; rfl
  · cases e.symm.trans hstep; rfl
  · exact (exec_frame i (e.symm.trans hstep)).2
  · cases e.symm.trans hstep

/-- `SENT`: the three sentinels, byte by byte (10_state.md R37). -/
theorem regValue_SENT_toNat (s : State) : (s.regValue .SENT).toNat =
    s.cfg.params.dle.toNat * 65536 + s.cfg.params.eot.toNat * 256 + s.cfg.params.soh.toNat := by
  have hdle : (0#8 ++ s.cfg.params.dle : BitVec 16).toNat = _ := toNat_append_eq _ _
  have heot : (0#8 ++ s.cfg.params.dle ++ s.cfg.params.eot : BitVec 24).toNat = _ := toNat_append_eq _ _
  have hsoh : (s.regValue .SENT).toNat = _ := toNat_append_eq _ _
  rw [hsoh, heot, hdle, BitVec.toNat_ofNat]
  omega

/-- `SIZES`: both sizes fit their halves, because each is at most 16384 (10_state.md R38). -/
theorem regValue_SIZES_toNat (s : State) :
    (s.regValue .SIZES).toNat = s.cfg.params.rxMax * 65536 + s.cfg.params.bufSize := by
  have hword : (s.regValue .SIZES).toNat = _ := toNat_append_eq _ _
  obtain ⟨-, ⟨-, hbuf⟩, -, hrx⟩ := s.cfg.valid.numbers
  rw [hword, BitVec.toNat_ofNat, BitVec.toNat_ofNat]
  omega

/-- Settles O12: the values read, and both registers show parameters only, which no step writes. -/
theorem hardwiredRegisters : Obligations.HardwiredRegisters := by
  refine ⟨fun s => ⟨_, _, rfl, rfl, regValue_SENT_toNat s, regValue_SIZES_toNat s⟩, fun s t hstep => ?_⟩
  simp only [State.regValue, step_cfg hstep, and_self]

/-! ## The flags are not read -/

/-- `s` with `STATUS.ERR`, `RXSTAT.EVT` and `RXSTAT.SEQ` as given (10_state.md R47). -/
abbrev State.withFlags (s : State) (e : ErrCode) (v : RxEvent) (q : Byte) : State :=
  { s with err := e, evt := v, seq := q }

/-- `s` with `RXSTAT.EVT` and `RXSTAT.SEQ` as given. -/
abbrev State.withEvent (s : State) (v : RxEvent) (q : Byte) : State := { s with evt := v, seq := q }

/-- The writing commands overwrite the error and carry the event along, on each of their outcomes. -/
theorem State.transform_withFlags (s : State) (f : List Byte → Except ErrCode (List Byte)) (e : ErrCode)
    (v : RxEvent) (q : Byte) : (s.withFlags e v q).transform f = (s.transform f).withEvent v q := by
  have hread : (s.withFlags e v q).sourceBytes = s.sourceBytes := rfl
  unfold State.transform
  rw [hread]
  split
  · rfl
  · split
    · rfl
    · cases f s.sourceBytes with
      | error err => rfl
      | ok out => simp only; split <;> rfl

/-- Every command but RX_RESET overwrites the error and carries the event along. -/
theorem runCommand_withFlags {c : Command} (hc : c ≠ .rxReset) (s : State) (e : ErrCode) (v : RxEvent) (q : Byte) :
    ∃ t, runCommand c s = .next t ∧ runCommand c (s.withFlags e v q) = .next (t.withEvent v q) := by
  cases c with
  | nop => exact ⟨_, rfl, rfl⟩
  | crcInit => exact ⟨_, rfl, rfl⟩
  | crcByte imm8 => exact ⟨_, rfl, rfl⟩
  | crcRange => simp only [runCommand, execCrcRange]; split <;> exact ⟨_, rfl, rfl⟩
  | idEncode =>
    simp only [runCommand, execIdEncode]
    split
    · split <;> exact ⟨_, rfl, rfl⟩
    · exact ⟨_, rfl, rfl⟩
  | idDecode => simp only [runCommand, execIdDecode]; split <;> exact ⟨_, rfl, rfl⟩
  | escSize => simp only [runCommand, execEscSize]; split <;> exact ⟨_, rfl, rfl⟩
  | escape => exact ⟨_, rfl, congrArg _ (s.transform_withFlags _ e v q)⟩
  | unescape => exact ⟨_, rfl, congrArg _ (s.transform_withFlags _ e v q)⟩
  | frame => exact ⟨_, rfl, congrArg _ (s.transform_withFlags _ e v q)⟩
  | rxReset => exact absurd rfl hc

/-- The value of `STATUS` is the code of the error (60_exceptions.md R220). -/
theorem regValue_STATUS (s : State) : s.regValue .STATUS = errNumber s.err := by
  show 0#28 ++ s.err.code = errNumber s.err
  cases s.err <;> rfl

/-- Settles O47: RX_RESET sets both flags itself, every other command carries them along. -/
theorem flagsAreNotRead : Obligations.FlagsAreNotRead := by
  refine ⟨fun s => ?_, fun c s e v q => ?_⟩
  · rw [regValue_STATUS]
    cases s.err <;> rfl
  · simp only [← runCommand_eq_exec]
    by_cases hc : c = .rxReset
    · subst hc
      exact ⟨_, rfl, rfl⟩
    · simp only [if_neg hc]
      exact runCommand_withFlags hc s e v q

/-! ## `STATUS.ERR` is written by commands only -/

/-- The command instructions are the commands and the write of a command word. -/
theorem isCommand_cases {i : Instr} (h : isCommand i = true) :
    (∃ c : Command, i = c.toInstr) ∨ ∃ w, i = .cmdWrite w := by
  cases i with
  | nop => exact .inl ⟨.nop, rfl⟩
  | crcInit => exact .inl ⟨.crcInit, rfl⟩
  | crcByte imm8 => exact .inl ⟨.crcByte imm8, rfl⟩
  | crcRange => exact .inl ⟨.crcRange, rfl⟩
  | idEncode => exact .inl ⟨.idEncode, rfl⟩
  | idDecode => exact .inl ⟨.idDecode, rfl⟩
  | escSize => exact .inl ⟨.escSize, rfl⟩
  | escape => exact .inl ⟨.escape, rfl⟩
  | unescape => exact .inl ⟨.unescape, rfl⟩
  | frame => exact .inl ⟨.frame, rfl⟩
  | rxReset => exact .inl ⟨.rxReset, rfl⟩
  | cmdWrite w => exact .inr ⟨w, rfl⟩
  | _ => cases h

/-- A command's outcome does not depend on the error before it: both runs carry the same event along. -/
theorem runCommand_withErr (c : Command) (s : State) (e : ErrCode) :
    runCommand c { s with err := e } = runCommand c s := by
  by_cases hc : c = .rxReset
  · subst hc; rfl
  · obtain ⟨t, hrun, hflags⟩ := runCommand_withFlags hc s e s.evt s.seq
    obtain ⟨t', hrun', hsame⟩ := runCommand_withFlags hc s s.err s.evt s.seq
    cases hrun.symm.trans hrun'
    exact hflags.trans hsame.symm

theorem execCmdWrite_withErr (w : Word) (s : State) (e : ErrCode) :
    execCmdWrite w { s with err := e } = execCmdWrite w s := by
  unfold execCmdWrite
  split
  · exact runCommand_withErr _ s e
  · rfl

/-- A transaction that is no command leaves `STATUS.ERR`. -/
theorem exec_err_of_not_command {i : Instr} (hp : i.patternOk = true) (hc : isCommand i = false)
    (hrun : exec i s = .next t) : t.err = s.err := by
  cases i with
  | regRead r => cases hrun; rfl
  | regWrite r v =>
    cases (exec_regWrite_of_patternOk hp s).symm.trans hrun
    cases r <;> rfl
  | rxFeed b => cases hrun; rw [s.feed_frame]
  | bufReadB a => obtain ⟨-, rfl⟩ := byteWindow_next_iff.1 hrun; rfl
  | bufReadW a => obtain ⟨-, rfl⟩ := wordWindow_next_iff.1 hrun; rfl
  | bufWriteB a v => obtain ⟨-, rfl⟩ := byteWindow_next_iff.1 hrun; rfl
  | bufWriteW a v => obtain ⟨-, rfl⟩ := wordWindow_next_iff.1 hrun; rfl
  | rxbufReadB a => obtain ⟨-, rfl⟩ := byteWindow_next_iff.1 hrun; rfl
  | rxbufReadW a => obtain ⟨-, rfl⟩ := wordWindow_next_iff.1 hrun; rfl
  | _ => cases hc

/-- Settles O46, by the two kinds of command instruction, the nine others, and the codes. -/
theorem errWrittenByCommandsOnly : Obligations.ErrWrittenByCommandsOnly := by
  refine ⟨fun i s e hc => ?_, fun i s t => exec_err_of_not_command, fun s => ?_⟩
  · obtain ⟨c, rfl⟩ | ⟨w, rfl⟩ := isCommand_cases hc
    · simp only [← runCommand_eq_exec]
      exact runCommand_withErr c s e
    · exact execCmdWrite_withErr w s e
  · rw [regValue_STATUS]
    cases s.err <;> rfl

/-! ## Which instruction writes what -/

/-- Settles O59, instruction by instruction: the state that its meaning leaves differs from the one before in the fields
listed for it at most. -/
theorem whoWritesWhat : Obligations.WhoWritesWhat := by
  intro i s t hp hne hrun
  cases i with
  | nop => cases hrun; simp
  | crcInit => cases hrun; simp
  | crcByte imm8 => cases hrun; simp
  | crcRange => rcases execCrcRange_cases s with ⟨-, e⟩ | ⟨-, e⟩ <;> cases e.symm.trans hrun <;> simp
  | idEncode => rcases execIdEncode_cases s with ⟨-, e⟩ | ⟨-, w, -, e⟩ <;> cases e.symm.trans hrun <;> simp
  | idDecode => rcases execIdDecode_cases s with ⟨-, e⟩ | ⟨g, m, c, a, -, e⟩ <;> cases e.symm.trans hrun <;> simp
  | escSize => rcases execEscSize_cases s with ⟨-, e⟩ | ⟨-, e⟩ <;> cases e.symm.trans hrun <;> simp
  | escape => cases hrun; rw [s.transform_frame]; simp
  | unescape => cases hrun; rw [s.transform_frame]; simp
  | frame => cases hrun; rw [s.transform_frame]; simp
  | rxReset => cases hrun; simp
  | cmdWrite w => exact absurd rfl (hne w)
  | regRead r => cases hrun; simp
  | regWrite r v =>
    cases (exec_regWrite_of_patternOk hp s).symm.trans hrun
    cases r <;> simp [State.regStore]
  | rxFeed b => cases hrun; rw [s.feed_frame]; simp
  | bufReadB a => obtain ⟨-, rfl⟩ := byteWindow_next_iff.1 hrun; simp
  | bufReadW a => obtain ⟨-, rfl⟩ := wordWindow_next_iff.1 hrun; simp
  | bufWriteB a v => obtain ⟨-, rfl⟩ := byteWindow_next_iff.1 hrun; simp
  | bufWriteW a v => obtain ⟨-, rfl⟩ := wordWindow_next_iff.1 hrun; simp
  | rxbufReadB a => obtain ⟨-, rfl⟩ := byteWindow_next_iff.1 hrun; simp
  | rxbufReadW a => obtain ⟨-, rfl⟩ := wordWindow_next_iff.1 hrun; simp

end Sys2Proof.Machine
end

section
/-! PROOFS. What a step does with the host's next event, and which transactions complete (20_memory.md R61, R64, R67,
44_host_access.md R210). -/

namespace Sys2Proof.Machine

variable {s t : State}

/-! ## The event that a step takes -/

/-- The decoder of both formats reads a transaction as the bus does. -/
theorem decodeTransaction_of_decode {tr : Transaction} {i : Instr} (h : decode (.bus tr) = .ok i) :
    decodeTransaction tr = .ok i := by
  unfold decode at h
  cases hd : decodeTransaction tr with
  | ok j => simpa only [hd, Except.ok.injEq] using h
  | error e => simp only [hd, reduceCtorEq] at h

/-- Settles O7, by the three forms of the pending events. -/
theorem stepRunsTransaction : Obligations.StepRunsTransaction := by
  refine fun s => ⟨fun tr rest i hhost hdec => ?_, fun rest hhost => ?_, fun hhost => ?_⟩
  · rw [step_bus hhost, decodeTransaction_of_decode hdec]
    rfl
  · unfold step
    rw [hhost]
    rfl
  · unfold step
    rw [hhost]

/-- Settles O11: a step drops the event it takes, and neither a meaning nor a reset pulse writes the list or the
parameters. -/
theorem stepTakesOneEvent : Obligations.StepTakesOneEvent := by
  refine fun s t hstep => ⟨?_, step_cfg hstep⟩
  rcases step_cases s with ⟨hhost, e⟩ | ⟨rest, hhost, e⟩ | ⟨tr, rest, i, hhost, -, e⟩ | ⟨tr, rest, err, -, -, e⟩
  · cases e.symm.trans hstep; rw [hhost]; rfl
  · cases e.symm.trans hstep; rw [hhost]; rfl
  · rw [(exec_frame i (e.symm.trans hstep)).1, hhost]; rfl
  · cases e.symm.trans hstep

/-! ## The transactions that complete -/

/-- An instruction completes exactly when its window access, if it is one, lies inside its window. -/
theorem exec_next_iff_inWindow (i : Instr) (s : State) :
    (∃ t, exec i s = .next t) ↔ i.inWindow s.cfg = true := by
  cases i with
  | bufReadB a => simp [exec, execBufReadB, byteWindow_next_iff, Instr.inWindow]
  | bufReadW a => simp [exec, execBufReadW, wordWindow_next_iff, Instr.inWindow]
  | bufWriteB a v => simp [exec, execBufWriteB, byteWindow_next_iff, Instr.inWindow]
  | bufWriteW a v => simp [exec, execBufWriteW, wordWindow_next_iff, Instr.inWindow]
  | rxbufReadB a => simp [exec, execRxbufReadB, byteWindow_next_iff, Instr.inWindow]
  | rxbufReadW a => simp [exec, execRxbufReadW, wordWindow_next_iff, Instr.inWindow]
  | regWrite r v =>
    refine iff_of_true ?_ rfl
    rcases execRegWrite_cases r v s with ⟨-, e⟩ | ⟨-, e⟩ | ⟨-, -, e⟩
    · exact (execCmdWrite_next v s).imp fun _ h => e.trans h
    · exact ⟨_, e⟩
    · exact ⟨_, e⟩
  | cmdWrite w => exact iff_of_true (execCmdWrite_next w s) rfl
  | crcRange => exact iff_of_true (runCommand_next .crcRange s) rfl
  | idEncode => exact iff_of_true (runCommand_next .idEncode s) rfl
  | idDecode => exact iff_of_true (runCommand_next .idDecode s) rfl
  | escSize => exact iff_of_true (runCommand_next .escSize s) rfl
  | _ => exact iff_of_true ⟨_, rfl⟩ rfl

/-- A register write is no window access. -/
theorem inWindow_decodeRegWrite (c : Config) (r : Reg) (v : Word) : (decodeRegWrite r v).inWindow c = true := by
  unfold decodeRegWrite
  split
  · rfl
  · split <;> rfl

/-- The byte accesses of R64: the region of the offset, and in a window its size. -/
theorem decodeByteAccess_legal_iff (c : Config) (dir : Dir) (o : Half) (v : Word) :
    (InBufWindow c o 1 ∨ (dir = .read ∧ InRxbufWindow c o 1)) ↔
      ∃ i, decodeByteAccess ⟨dir, .byte, o, v⟩ = .ok i ∧ i.inWindow c = true := by
  obtain ⟨-, ⟨-, hbuf⟩, -, hrx⟩ := c.valid.numbers
  have hregion := regionOf_spec o
  unfold decodeByteAccess
  cases hr : regionOf o with
  | regs r =>
    simp only [hr] at hregion
    exact iff_of_false (by omega) (by simp)
  | buf a =>
    simp only [hr] at hregion
    cases dir <;> simp [Instr.inWindow] <;> omega
  | rxbuf a =>
    simp only [hr] at hregion
    cases dir <;> simp [Instr.inWindow] <;> omega
  | unmapped =>
    simp only [hr] at hregion
    exact iff_of_false (by omega) (by simp)

/-- The word accesses of R64: the alignment, the region of the offset, and in a window its size. -/
theorem decodeWordAccess_legal_iff (c : Config) (dir : Dir) (o : Half) (v : Word) :
    (o.toNat % 4 = 0 ∧ (o.toNat < 0x40 ∨ InBufWindow c o 4 ∨ (dir = .read ∧ InRxbufWindow c o 4))) ↔
      ∃ i, decodeWordAccess ⟨dir, .word, o, v⟩ = .ok i ∧ i.inWindow c = true := by
  obtain ⟨-, ⟨-, hbuf⟩, -, hrx⟩ := c.valid.numbers
  have hregion := regionOf_spec o
  unfold decodeWordAccess
  simp only [low_bits_zero_iff]
  by_cases halign : o.toNat % 4 = 0
  · cases hr : regionOf o with
    | regs r =>
      simp only [hr] at hregion
      refine iff_of_true ⟨halign, .inl hregion.1⟩ ?_
      cases dir with
      | read => exact ⟨_, if_pos halign, rfl⟩
      | write => exact ⟨_, if_pos halign, inWindow_decodeRegWrite c r v⟩
    | buf a =>
      simp only [hr] at hregion
      cases dir <;> simp [halign, Instr.inWindow] <;> omega
    | rxbuf a =>
      simp only [hr] at hregion
      cases dir <;> simp [halign, Instr.inWindow] <;> omega
    | unmapped =>
      simp only [hr] at hregion
      exact iff_of_false (by omega) (by simp)
  · refine iff_of_false (fun h => halign h.1) ?_
    cases regionOf o <;> cases dir <;> simp [halign]

/-- The accesses of R64 are those that decode to an operation inside its window. -/
theorem legal_iff_decodeTransaction (c : Config) (tr : Transaction) :
    tr.Legal c ↔ ∃ i, decodeTransaction tr = .ok i ∧ i.inWindow c = true := by
  obtain ⟨dir, width, o, v⟩ := tr
  cases width with
  | byte => exact decodeByteAccess_legal_iff c dir o v
  | word => exact decodeWordAccess_legal_iff c dir o v
  | half => simp [Transaction.Legal, decodeTransaction]

/-- Settles O9: a transaction outside R64 is refused by the decoder, or by the meaning that its window stops. -/
theorem busFaults : Obligations.BusFaults := by
  intro s tr rest hhost
  rw [step_bus hhost, legal_iff_decodeTransaction]
  cases hd : decodeTransaction tr with
  | error e => simp
  | ok i =>
    have hcompletes := exec_next_iff_inWindow i (s.accept rest)
    rw [State.accept_cfg] at hcompletes
    simp only [Except.ok.injEq, exists_eq_left', ← hcompletes]
    exact ⟨id, (exec_next_or_fault i (s.accept rest)).resolve_left⟩

end Sys2Proof.Machine
end

section
/-! PROOFS. A read of `BUF` after a write (20_memory.md R62, R68). -/

namespace Sys2Proof.Machine

variable {s t : State} {a : BitVec 14}

/-- A word whose four bytes the memory holds reads as that word, whatever the draw number. -/
theorem Memory.wordAt_eq {m : Memory} {n : Nat} {v : Word} (d : Nat)
    (h : ∀ k, k < 4 → m.read? (n + k) = some ((v >>> (8 * k)).setWidth 8)) : m.wordAt n d = v :=
  word_eq_of_bytes _ _ fun k hk => (byte_of_wordAt m n d k hk).trans (byteAt_of_read? _ (h k hk))

/-- Each byte that a word write stored, little-endian (R62). -/
theorem Memory.read?_writeAll_bytesOfWord (m : Memory) (n : Nat) (v : Word) {k : Nat} (hk : k < 4) :
    (m.writeAll n (bytesOfWord v)).read? (n + k) = some ((v >>> (8 * k)).setWidth 8) := by
  have hlength : (bytesOfWord v).length = 4 := rfl
  rw [read?_writeAll, if_pos (by omega), Nat.add_sub_cancel_left, getElem?_bytesOfWord v k hk]

/-- A byte read inside the window answers what the memory reads as there. -/
theorem exec_bufReadB_of_byteAt {x : Byte} (hin : ByteInWindow s.cfg.params.bufSize a)
    (hread : s.buf.byteAt a.toNat s.draws = x) :
    exec (.bufReadB a) s = .next { s with resp := .byte x, draws := s.draws + 1 } :=
  byteWindow_next_iff.2 ⟨hin, hread ▸ rfl⟩

/-- A word read inside the window answers what the memory reads as there. -/
theorem exec_bufReadW_of_wordAt {w : Word} (hin : WordInWindow s.cfg.params.bufSize a)
    (hread : s.buf.wordAt a.toNat s.draws = w) :
    exec (.bufReadW a) s = .next { s with resp := .word w, draws := s.draws + 4 } :=
  wordWindow_next_iff.2 ⟨hin, hread ▸ rfl⟩

/-- A byte of a word inside the window: its address does not wrap. -/
theorem toNat_add_of_wordInWindow {c : Config} (hin : WordInWindow c.params.bufSize a) {k : Nat} (hk : k < 4) :
    (a + BitVec.ofNat 14 k).toNat = a.toNat + k := by
  obtain ⟨-, ⟨-, hsize⟩, -⟩ := c.valid.numbers
  obtain ⟨-, hlast⟩ := hin
  rw [BitVec.toNat_add, BitVec.toNat_ofNat]
  omega

/-- Settles O58: the bytes that a write stored are those that the reads find. -/
theorem bufReadAfterWrite : Obligations.BufReadAfterWrite := by
  refine fun a v x s t => ⟨fun hwrite => ?_, fun hwrite => ?_⟩
  · obtain ⟨hin, rfl⟩ := wordWindow_next_iff.1 hwrite
    have hstored {k : Nat} (hk : k < 4) := s.buf.read?_writeAll_bytesOfWord a.toNat v hk
    refine ⟨exec_bufReadW_of_wordAt hin (Memory.wordAt_eq _ fun _ => hstored), fun k hk => ?_⟩
    have haddr := toNat_add_of_wordInWindow hin hk
    have hbyteIn : ByteInWindow s.cfg.params.bufSize (a + BitVec.ofNat 14 k) := by
      obtain ⟨-, hlast⟩ := hin
      show (a + BitVec.ofNat 14 k).toNat < s.cfg.params.bufSize
      omega
    exact exec_bufReadB_of_byteAt hbyteIn (Memory.byteAt_of_read? _ (haddr ▸ hstored hk))
  · obtain ⟨hin, rfl⟩ := byteWindow_next_iff.1 hwrite
    have hstored (d : Nat) : (s.buf.write a.toNat x).byteAt a.toNat d = x :=
      Memory.byteAt_of_read? d Memory.read?_write_same
    refine ⟨exec_bufReadB_of_byteAt hin (hstored _), fun b halign hlast hle hlt => ?_⟩
    refine ⟨_, exec_bufReadW_of_wordAt ⟨halign, hlast⟩ rfl, ?_⟩
    rw [byte_of_wordAt _ _ _ _ (by omega), Nat.add_sub_cancel' hle]
    exact hstored _

end Sys2Proof.Machine
end

section
/-! PROOFS. Commands and deframer share only `SEED` and the parameters (20_memory.md R74, 10_state.md R40). -/

namespace Sys2Proof.Machine

/-! ## Commands and the deframer's state -/

/-- The writing commands carry the deframer's state along, on each of their outcomes. -/
theorem State.transform_withDeframerOf (s d : State) (f : List Byte → Except ErrCode (List Byte)) :
    (s.withDeframerOf d).transform f = (s.transform f).withDeframerOf d := by
  have hread : (s.withDeframerOf d).sourceBytes = s.sourceBytes := rfl
  unfold State.transform
  rw [hread]
  cases f s.sourceBytes with
  | error e => simp only [apply_ite (State.withDeframerOf · d)]; rfl
  | ok out => simp only [apply_ite (State.withDeframerOf · d)]; rfl

/-- The writing commands leave the deframer's state. -/
theorem State.transform_eq_withDeframerOf (s : State) (f : List Byte → Except ErrCode (List Byte)) :
    s.transform f = (s.transform f).withDeframerOf s := by
  rw [s.transform_frame]
  rfl

/-- Every command but RX_RESET leaves the deframer's state, and runs the same way beside any other one. -/
theorem runCommand_withDeframerOf {c : Command} (hc : c ≠ .rxReset) (s d : State) :
    ∃ t, runCommand c s = .next t ∧ t = t.withDeframerOf s ∧
      runCommand c (s.withDeframerOf d) = .next (t.withDeframerOf d) := by
  unfold State.withDeframerOf
  cases c with
  | nop => exact ⟨_, rfl, rfl, rfl⟩
  | crcInit => exact ⟨_, rfl, rfl, rfl⟩
  | crcByte imm8 => exact ⟨_, rfl, rfl, rfl⟩
  | crcRange => simp only [runCommand, execCrcRange]; split <;> exact ⟨_, rfl, rfl, rfl⟩
  | idEncode =>
    simp only [runCommand, execIdEncode]
    split
    · split <;> exact ⟨_, rfl, rfl, rfl⟩
    · exact ⟨_, rfl, rfl, rfl⟩
  | idDecode => simp only [runCommand, execIdDecode]; split <;> exact ⟨_, rfl, rfl, rfl⟩
  | escSize => simp only [runCommand, execEscSize]; split <;> exact ⟨_, rfl, rfl, rfl⟩
  | escape => exact ⟨_, rfl, s.transform_eq_withDeframerOf _, congrArg _ (s.transform_withDeframerOf d _)⟩
  | unescape => exact ⟨_, rfl, s.transform_eq_withDeframerOf _, congrArg _ (s.transform_withDeframerOf d _)⟩
  | frame => exact ⟨_, rfl, s.transform_eq_withDeframerOf _, congrArg _ (s.transform_withDeframerOf d _)⟩
  | rxReset => exact absurd rfl hc

/-! ## The deframer and the rest of the state -/

/-- Appending a byte carries the rest of the state along. -/
theorem State.append_withCommandsOf (s d : State) (v : Byte) :
    (s.withCommandsOf d).append v = (s.append v).withCommandsOf d := by
  unfold State.append
  rw [apply_ite (State.withCommandsOf · d)]
  rfl

/-- The end of a frame carries the rest of the state along: its checksum starts from `SEED`, which is shared. -/
theorem State.endFrame_withCommandsOf (s d : State) :
    (s.withCommandsOf d).endFrame = s.endFrame.withCommandsOf d := by
  unfold State.endFrame
  rw [apply_ite (State.withCommandsOf · d)]
  rfl

/-- An input byte carries the rest of the state along. -/
theorem State.feed_withCommandsOf (s d : State) (b : Byte) :
    (s.withCommandsOf d).feed b = (s.feed b).withCommandsOf d := by
  have hstate : (s.withCommandsOf d).rxState = s.rxState := rfl
  unfold State.feed
  rw [hstate]
  cases s.rxState with
  | idle =>
    simp only [apply_ite (State.withCommandsOf · d)]
    rfl
  | inFrame =>
    simp only [apply_ite (State.withCommandsOf · d), ← append_withCommandsOf, ← endFrame_withCommandsOf]
    rfl
  | inEscape =>
    simp only [apply_ite (State.withCommandsOf · d), ← append_withCommandsOf]
    rfl

/-- An input byte leaves the rest of the state, `SEED` and the parameters. -/
theorem State.feed_leaves_commands (s : State) (b : Byte) :
    s.feed b = (s.feed b).withCommandsOf s ∧ (s.feed b).seed = s.seed ∧ (s.feed b).cfg = s.cfg := by
  rw [s.feed_frame]
  exact ⟨rfl, rfl, rfl⟩

/-- Settles O52: for commands and for the deframer, what is left, and the same run beside another state of the other. -/
theorem onlySeedIsShared : Obligations.OnlySeedIsShared := by
  refine ⟨fun c s d hc => ?_, fun b s d => ?_⟩
  · simp only [← runCommand_eq_exec]
    exact runCommand_withDeframerOf hc s d
  · obtain ⟨hleft, hseed, hcfg⟩ := s.feed_leaves_commands b
    exact ⟨_, rfl, hleft, hseed, hcfg, congrArg _ (s.feed_withCommandsOf d b)⟩

end Sys2Proof.Machine
end

section
/-! PROOFS. Command words: the opcode map under the table's mask, the words that are no command
(30_encoding.md R82, R84; 44_host_access.md R212). -/

namespace Sys2Proof.Machine

/-- A word is a command exactly when `RSVD` is 0 and the opcode map lists its opcode (30_encoding.md R80). -/
theorem decodeCommand_eq_ok_iff (w : Word) (c : Command) :
    decodeCommand w = .ok c ↔ cmdRsvd w = 0 ∧ decodeOpcode (cmdOpcode w) (cmdImm8 w) = .ok c := by
  unfold decodeCommand
  by_cases hrsvd : cmdRsvd w = 0
  · rw [if_neg (not_not.2 hrsvd), and_iff_right hrsvd]
  · rw [if_pos hrsvd]
    exact iff_of_false nofun fun h => hrsvd h.1

theorem cmdImm8_eq_setWidth (w : Word) : cmdImm8 w = (w >>> 8).setWidth 8 :=
  BitVec.setWidth_ushiftRight_eq_extractLsb.symm

/-- Settles O2: the mask keeps `RSVD` and `OPCODE`, on which the decoder branches. -/
theorem opcodeMap : Obligations.OpcodeMap := by
  intro w c
  rw [decodeCommand_eq_ok_iff, decodeOpcode_eq_ok_iff]
  cases c with
  | crcByte imm8 =>
    rw [← cmdImm8_eq_setWidth, ← and_assoc]
    exact and_congr_left' (and_mask_eq_iff w 0x02).symm
  | _ => exact (and_mask_eq_iff w _).symm

/-! ## The words that are no command -/

/-- The opcodes that R82 lists. -/
def listedOpcodes : List Byte := [0x00, 0x01, 0x02, 0x03, 0x10, 0x11, 0x20, 0x21, 0x22, 0x23, 0x30]

theorem exists_decodeOpcode_eq_ok_iff (op imm8 : Byte) :
    (∃ c, decodeOpcode op imm8 = .ok c) ↔ op ∈ listedOpcodes := by
  constructor
  · rintro ⟨c, h⟩
    rw [decodeOpcode_eq_ok_iff] at h
    cases c with
    | crcByte _ => obtain ⟨rfl, -⟩ := h; decide
    | _ => subst h; decide
  · intro h
    simp only [listedOpcodes, List.mem_cons, List.not_mem_nil, or_false] at h
    rcases h with rfl | rfl | rfl | rfl | rfl | rfl | rfl | rfl | rfl | rfl | rfl <;> exact ⟨_, rfl⟩

/-- The upper half of a word is its field `RSVD`. -/
theorem ushiftRight_16_eq_zero_iff (w : Word) : w >>> 16 = 0 ↔ cmdRsvd w = 0 := by
  have hw := w.isLt
  simp only [← BitVec.toNat_inj, cmdRsvd, BitVec.extractLsb'_toNat, BitVec.toNat_ushiftRight,
    Nat.shiftRight_eq_div_pow, BitVec.ofNat_eq_ofNat, BitVec.toNat_ofNat]
  omega

/-- The low byte of a word is its field `OPCODE`. -/
theorem and_0xFF_eq_setWidth (w : Word) : w &&& 0xFF = (cmdOpcode w).setWidth 32 := by
  apply BitVec.eq_of_toNat_eq
  rw [BitVec.toNat_setWidth, cmdOpcode, BitVec.extractLsb'_toNat]
  have hmask : (w &&& 0xFF).toNat = w.toNat % 2 ^ 8 := Nat.and_two_pow_sub_one_eq_mod w.toNat 8
  omega

theorem setWidth_byte_injective : Function.Injective fun b : Byte => (b.setWidth 32 : Word) :=
  Function.LeftInverse.injective extract_setWidth_byte

/-- The low byte of a word is one of the listed numbers exactly when the map lists its opcode. -/
theorem and_0xFF_mem_iff (w : Word) :
    w &&& 0xFF ∈ ([0x00, 0x01, 0x02, 0x03, 0x10, 0x11, 0x20, 0x21, 0x22, 0x23, 0x30] : List Word) ↔
      cmdOpcode w ∈ listedOpcodes := by
  rw [and_0xFF_eq_setWidth]
  exact List.mem_map_of_injective setWidth_byte_injective (l := listedOpcodes)

theorem exists_decodeCommand_eq_ok_iff (w : Word) :
    (∃ c, decodeCommand w = .ok c) ↔ cmdRsvd w = 0 ∧ cmdOpcode w ∈ listedOpcodes := by
  simp only [decodeCommand_eq_ok_iff, exists_and_left, exists_decodeOpcode_eq_ok_iff]

/-- A word that is no command fails the write of `CMD` with IllegalCommand (R212). -/
theorem exec_cmdWrite_of_not_command {w : Word} (h : ∀ c, decodeCommand w ≠ .ok c) (s : State) :
    exec (.cmdWrite w) s = .next (s.raise .illegalCommand) := by
  show execCmdWrite w s = _
  unfold execCmdWrite
  split
  · rename_i c hc
    exact absurd hc (h c)
  · rfl

/-- Settles O3: the complement of the map, field by field, and the shared failure. -/
theorem illegalCommandWords : Obligations.IllegalCommandWords := by
  refine ⟨rfl, fun w s => ⟨?_, fun h => exec_cmdWrite_of_not_command h s⟩⟩
  rw [ne_eq, ushiftRight_16_eq_zero_iff, and_0xFF_mem_iff, ← not_and_or, ← exists_decodeCommand_eq_ok_iff, not_exists]

end Sys2Proof.Machine
end

section
/-! PROOFS. Bus transactions: each row of the table from its offset, direction and width, and decoding undoes encoding
(30_encoding.md R82, R83). -/

namespace Sys2Proof.Machine

/-! ## Window accesses -/

theorem decodeTransaction_bufReadB (a : BitVec 14) (v : Word) :
    decodeTransaction ⟨.read, .byte, bufOffset a, v⟩ = .ok (.bufReadB a) := by
  simp only [decodeTransaction, decodeByteAccess, regionOf_bufOffset]

theorem decodeTransaction_bufWriteB (a : BitVec 14) (v : Word) :
    decodeTransaction ⟨.write, .byte, bufOffset a, v⟩ = .ok (.bufWriteB a (v.extractLsb' 0 8)) := by
  simp only [decodeTransaction, decodeByteAccess, regionOf_bufOffset]

theorem decodeTransaction_rxbufReadB (a : BitVec 14) (v : Word) :
    decodeTransaction ⟨.read, .byte, rxbufOffset a, v⟩ = .ok (.rxbufReadB a) := by
  simp only [decodeTransaction, decodeByteAccess, regionOf_rxbufOffset]

section Aligned

variable {a : BitVec 14} (halign : a.toNat % 4 = 0) (v : Word)

include halign

/-- The windows start at multiples of 4, so an aligned address has an aligned offset. -/
theorem bufOffset_low_bits : (bufOffset a).extractLsb' 0 2 = 0 := by
  rw [low_bits_zero_iff, bufOffset_toNat]
  omega

theorem rxbufOffset_low_bits : (rxbufOffset a).extractLsb' 0 2 = 0 := by
  rw [low_bits_zero_iff, rxbufOffset_toNat]
  omega

theorem decodeTransaction_bufReadW : decodeTransaction ⟨.read, .word, bufOffset a, v⟩ = .ok (.bufReadW a) := by
  simp only [decodeTransaction, decodeWordAccess, regionOf_bufOffset, bufOffset_low_bits halign, if_true]

theorem decodeTransaction_bufWriteW : decodeTransaction ⟨.write, .word, bufOffset a, v⟩ = .ok (.bufWriteW a v) := by
  simp only [decodeTransaction, decodeWordAccess, regionOf_bufOffset, bufOffset_low_bits halign, if_true]

theorem decodeTransaction_rxbufReadW : decodeTransaction ⟨.read, .word, rxbufOffset a, v⟩ = .ok (.rxbufReadW a) := by
  simp only [decodeTransaction, decodeWordAccess, regionOf_rxbufOffset, rxbufOffset_low_bits halign, if_true]

end Aligned

/-! ## Register writes -/

/-- A 32-bit write at the offset of a register that REG_WRITE covers (R83). -/
theorem decodeTransaction_regWrite_of_ne {r : Reg} (hcmd : r ≠ .CMD) (hrx : r ≠ .RXDATA) (v : Word) :
    decodeTransaction ⟨.write, .word, r.offset, v⟩ = .ok (.regWrite r v) := by
  rw [decodeTransaction_regWrite, decodeRegWrite, if_neg hcmd, if_neg hrx]

/-! ## The rows at their literal offsets -/

theorem bufOffset_eq_add (a : BitVec 14) : (0x4000 + a.setWidth 16 : Half) = bufOffset a := by
  apply BitVec.eq_of_toNat_eq
  rw [bufOffset_toNat]
  bv_omega

theorem rxbufOffset_eq_add (a : BitVec 14) : (0x8000 + a.setWidth 16 : Half) = rxbufOffset a := by
  apply BitVec.eq_of_toNat_eq
  rw [rxbufOffset_toNat]
  bv_omega

/-- Settles O5, row by row: the literal offsets are the decoder's patterns. -/
theorem busRows : Obligations.BusRows := by
  intro r a v
  rw [busOffset_eq, bufOffset_eq_add, rxbufOffset_eq_add, BitVec.setWidth_eq_extractLsb' (by decide : 8 ≤ 32)]
  exact ⟨decodeTransaction_regRead r v, fun hcmd hrx => decodeTransaction_regWrite_of_ne hcmd hrx v,
    decodeTransaction_cmdWrite v, decodeTransaction_rxFeed v, decodeTransaction_bufReadB a v,
    decodeTransaction_bufWriteB a v, decodeTransaction_rxbufReadB a v, fun halign =>
    ⟨decodeTransaction_bufReadW halign v, decodeTransaction_bufWriteW halign v, decodeTransaction_rxbufReadW halign v⟩⟩

/-! ## Decoding undoes encoding -/

theorem decode_bus_of_decodeTransaction {tr : Transaction} {i : Instr} (h : decodeTransaction tr = .ok i) :
    decode (.bus tr) = .ok i := by
  simp only [decode, h]

/-- A command word with `RSVD = 0` decodes to the command of its opcode. -/
theorem decode_commandWord {imm8 op : Byte} {c : Command} (h : decodeOpcode op imm8 = .ok c) :
    decode (.cmd32 (commandWord imm8 op)) = .ok c.toInstr := by
  have hc : decodeCommand (commandWord imm8 op) = .ok c := (decodeCommand_word 0 imm8 op).trans h
  simp only [decode, hc]

theorem decode_encode_command (c : Command) : decode (encode c.toInstr) = .ok c.toInstr := by
  cases c <;> exact decode_commandWord rfl

theorem decode_encode_of_not_command {i : Instr} (hp : i.patternOk = true) (hc : isCommand i = false) :
    decode (encode i) = .ok i := by
  cases i with
  | regRead r => exact decode_bus_of_decodeTransaction (decodeTransaction_regRead r 0)
  | regWrite r v =>
    obtain ⟨hcmd, hrx⟩ : r ≠ .CMD ∧ r ≠ .RXDATA := of_decide_eq_true hp
    exact decode_bus_of_decodeTransaction (decodeTransaction_regWrite_of_ne hcmd hrx v)
  | rxFeed b =>
    have h := decodeTransaction_rxFeed (b.setWidth 32)
    rw [extract_setWidth_byte] at h
    exact decode_bus_of_decodeTransaction h
  | bufReadB a => exact decode_bus_of_decodeTransaction (decodeTransaction_bufReadB a 0)
  | bufReadW a => exact decode_bus_of_decodeTransaction (decodeTransaction_bufReadW (of_decide_eq_true hp) 0)
  | bufWriteB a v =>
    have h := decodeTransaction_bufWriteB a (v.setWidth 32)
    rw [extract_setWidth_byte] at h
    exact decode_bus_of_decodeTransaction h
  | bufWriteW a v => exact decode_bus_of_decodeTransaction (decodeTransaction_bufWriteW (of_decide_eq_true hp) v)
  | rxbufReadB a => exact decode_bus_of_decodeTransaction (decodeTransaction_rxbufReadB a 0)
  | rxbufReadW a => exact decode_bus_of_decodeTransaction (decodeTransaction_rxbufReadW (of_decide_eq_true hp) 0)
  | _ => cases hc

/-- Settles O1: the command words, the write of one to `CMD`, and the other bus operations. -/
theorem decodeEncode : Obligations.DecodeEncode := by
  intro i hp
  cases hc : isCommand i with
  | false => exact decode_encode_of_not_command hp hc
  | true =>
    obtain ⟨c, rfl⟩ | ⟨w, rfl⟩ := isCommand_cases hc
    · exact decode_encode_command c
    · exact decode_bus_of_decodeTransaction (decodeTransaction_cmdWrite w)

/-- Settles O6: closed words and transactions, decoded by evaluation. -/
theorem decodedWords : Obligations.DecodedWords := by
  unfold Obligations.DecodedWords
  decide

end Sys2Proof.Machine
end

section
/-! PROOFS. The pseudo-instruction `seed` (30_encoding.md R86, R87). -/

namespace Sys2Proof.Machine

variable {s : State} {rest : List HostEvent}

/-- A step at a transaction that decodes runs its instruction. -/
theorem step_of_decodeTransaction {tr : Transaction} {i : Instr} (hhost : s.host = .bus tr :: rest)
    (hdec : decodeTransaction tr = .ok i) : step s = exec i (s.accept rest) := by
  rw [step_bus hhost, hdec]

/-- The line `wr r, v` stores, where `r` is neither `CMD` nor `RXDATA`. -/
theorem step_wr {r : Reg} {v : Word} (hcmd : r ≠ .CMD) (hrx : r ≠ .RXDATA)
    (hhost : s.host = .bus (Asm.wr r v).transaction :: rest) : step s = .next ((s.accept rest).regStore v r) :=
  (step_of_decodeTransaction hhost (decodeTransaction_regWrite_of_ne hcmd hrx v)).trans
    (exec_regWrite_of_patternOk (decide_eq_true ⟨hcmd, hrx⟩) _)

/-- The line `crc.init` loads the seed into `CRC` and `RESULT`. -/
theorem step_crcInit (hhost : s.host = .bus Asm.crcInit.transaction :: rest) :
    step s = .next ((s.accept rest).loadCrc s.seed) :=
  step_of_decodeTransaction hhost (decodeTransaction_cmdWrite 0x01)

/-- Settles O60: `wr SEED, v` stores the seed, and `crc.init` loads it. -/
theorem pseudoSeed : Obligations.PseudoSeed := by
  intro s v hempty
  have hload : s.load (Pseudo.lines (.seed v)) =
      { s with host := [.bus (Asm.wr .SEED v).transaction, .bus Asm.crcInit.transaction] } := by
    rw [State.load, hempty]
    rfl
  rw [hload, run_succ (step_wr Reg.noConfusion Reg.noConfusion rfl), run_succ (step_crcInit rfl), run_zero,
    BitVec.setWidth_eq_extractLsb' (by decide : 8 ≤ 32), ← hempty]
  rfl

end Sys2Proof.Machine
end

section
/-! PROOFS. The CRC step and the CRC of a sequence: the laws of the step, the residue, the source's vector
(40_crc.md R100 to R104). -/

namespace Sys2Proof.Machine

/-! ## One shift -/

/-- The bit shifted out, as R100 tests it. -/
theorem and_one_eq_one_iff (x : Byte) : x &&& 0x01 = 0x01 ↔ x.getLsbD 0 = true := by
  have hmask : x &&& 0x01 = (BitVec.ofBool (x.getLsbD 0)).setWidth 8 :=
    BitVec.and_one_eq_setWidth_ofBool_getLsbD
  rw [hmask]
  cases x.getLsbD 0 <;> decide

/-- A function with the law of R100's shift is the shift. -/
theorem eq_crcShift {poly : Byte} {shift : Byte → Byte}
    (h : ∀ x, shift x = if x &&& 0x01 = 0x01 then (x >>> 1) ^^^ poly else x >>> 1) : shift = crcShift poly := by
  funext x
  simp only [h, and_one_eq_one_iff, crcShift]

theorem crcShift_of_even (poly : Byte) {t : Byte} (h : t.getLsbD 0 = false) : crcShift poly t = t >>> 1 := by
  rw [crcShift, h]
  rfl

theorem crcShift_of_odd (poly : Byte) {t : Byte} (h : t.getLsbD 0 = true) : crcShift poly t = (t >>> 1) ^^^ poly :=
  if_pos h

theorem crcShift_zero (poly : Byte) : crcShift poly 0x00 = 0x00 := crcShift_of_even poly rfl

theorem crcShift_one (poly : Byte) : crcShift poly 0x01 = poly :=
  (crcShift_of_odd poly rfl).trans BitVec.zero_xor

/-- The top bit comes down to bit 0 in seven shifts, and nothing is XORed in on its way. -/
theorem iterate_crcShift_top (poly : Byte) {n : Nat} (hn : n ≤ 7) :
    (crcShift poly)^[n] 0x80 = (0x80 : Byte) >>> n := by
  induction n with
  | zero => rfl
  | succ n ih =>
    have heven : ∀ k < 7, ((0x80 : Byte) >>> k).getLsbD 0 = false := by decide
    rw [Function.iterate_succ_apply', ih (by omega), crcShift_of_even poly (heven n hn), BitVec.shiftRight_add]

/-- A byte with bit 0 clear loses nothing in a shift right. -/
theorem ushiftRight_one_eq_zero_iff {t : Byte} (h : t.getLsbD 0 = false) : t >>> 1 = 0x00 ↔ t = 0x00 := by
  have heven : ¬ t.toNat % 2 = 1 := by simpa only [BitVec.getLsbD, Nat.testBit_zero, decide_eq_false_iff_not] using h
  rw [← BitVec.toNat_inj, ← BitVec.toNat_inj, BitVec.toNat_ushiftRight, Nat.shiftRight_eq_div_pow]
  show t.toNat / 2 ^ 1 = 0 ↔ t.toNat = 0
  omega

/-- With its top bit set the polynomial marks every bit that was shifted out, so only 0 shifts to 0. -/
theorem crcShift_eq_zero_iff {poly : Byte} (hpoly : poly.msb = true) (t : Byte) :
    crcShift poly t = 0x00 ↔ t = 0x00 := by
  cases hlow : t.getLsbD 0 with
  | false => rw [crcShift_of_even poly hlow, ushiftRight_one_eq_zero_iff hlow]
  | true =>
    rw [crcShift_of_odd poly hlow]
    refine iff_of_false (fun h => ?_) (by rintro rfl; cases hlow)
    have hmsb : (t >>> 1).msb = false := BitVec.msb_ushiftRight
    rw [BitVec.xor_eq_zero_iff.1 h, hpoly] at hmsb
    cases hmsb

theorem iterate_crcShift_eq_zero_iff {poly : Byte} (hpoly : poly.msb = true) (n : Nat) (t : Byte) :
    (crcShift poly)^[n] t = 0x00 ↔ t = 0x00 := by
  induction n generalizing t with
  | zero => exact Iff.rfl
  | succ n ih => rw [Function.iterate_succ_apply, ih, crcShift_eq_zero_iff hpoly]

/-! ## One step -/

theorem crc8Step_self (poly c : Byte) : crc8Step poly c c = 0x00 := by
  rw [crc8Step, BitVec.xor_self]
  exact Function.iterate_fixed (crcShift_zero poly) 8

/-- The step depends on the XOR of its arguments only (R103 (a)). -/
theorem crc8Step_eq_crc8Step_xor (poly c b : Byte) : crc8Step poly c b = crc8Step poly (c ^^^ b) 0x00 :=
  congrArg (crcShift poly)^[8] (BitVec.xor_zero (x := c ^^^ b)).symm

/-- The step is linear over GF(2) (R103 (c)). -/
theorem crc8Step_xor (poly c b c' b' : Byte) :
    crc8Step poly c b ^^^ crc8Step poly c' b' = crc8Step poly (c ^^^ c') (b ^^^ b') := by
  have hargs : c ^^^ b ^^^ (c' ^^^ b') = c ^^^ c' ^^^ (b ^^^ b') := by ac_rfl
  unfold crc8Step
  rw [← iterate_crcShift_xor, hargs]

/-- The step from 0 with the top bit shows the polynomial (R103 (e)). -/
theorem crc8Step_zero_top (poly : Byte) : crc8Step poly 0x00 0x80 = poly :=
  calc (crcShift poly)^[8] 0x80
    _ = crcShift poly ((crcShift poly)^[7] 0x80) := Function.iterate_succ_apply' _ 7 _
    _ = crcShift poly 0x01 := congrArg _ (iterate_crcShift_top poly le_rfl)
    _ = poly := crcShift_one poly

theorem crc8Step_eq_zero_iff {poly : Byte} (hpoly : poly.msb = true) (c b : Byte) :
    crc8Step poly c b = 0x00 ↔ c = b := by
  rw [crc8Step, iterate_crcShift_eq_zero_iff hpoly]
  exact BitVec.xor_eq_zero_iff

/-! ## Sequences -/

theorem crc8_append (poly seed : Byte) (s t : List Byte) :
    crc8 poly seed (s ++ t) = crc8 poly (crc8 poly seed s) t := List.foldl_append

/-- Zero bytes keep a zero register (R103 (d)). -/
theorem crc8_replicate_zero (poly : Byte) (n : Nat) : crc8 poly 0x00 (List.replicate n 0x00) = 0x00 := by
  induction n with
  | zero => rfl
  | succ n ih =>
    calc crc8 poly 0x00 (List.replicate (n + 1) 0x00)
      _ = crc8 poly (crc8Step poly 0x00 0x00) (List.replicate n 0x00) := rfl
      _ = 0x00 := by rw [crc8Step_self, ih]

/-- A sequence with its checksum has CRC 0 (R104). -/
theorem crc8_concat_checksum (poly seed : Byte) (p : List Byte) :
    crc8 poly seed (p ++ [crc8 poly seed p]) = 0x00 := by
  rw [crc8_concat, crc8Step_self]

/-- Both polynomials that the source's vector admits have their top bit set (00_scope.md R2). -/
theorem crcPoly_msb (c : Config) : c.params.crcPoly.msb = true := by
  rcases c.valid.numbers.1 with h | h <;> rw [h] <;> rfl

/-- The source's vector, on every configuration (R102). -/
theorem crc8_sourceVector (c : Config) : crc8 c.params.crcPoly 0xFF [0x88, 0x00, 0x01] = 0xCB :=
  (crc8_sourceVector_iff _).2 c.valid.numbers.1

/-! ## The statements -/

/-- Settles O28: the laws of the step, and zero bytes by induction on their number. -/
theorem crcLaws : Obligations.CrcLaws := fun poly c b c' b' n =>
  ⟨crc8Step_eq_crc8Step_xor poly c b, crc8Step_self poly c, crc8Step_xor poly c b c' b', crc8_replicate_zero poly n,
    crc8Step_zero_top poly⟩

/-- Settles O29: the last step has equal arguments; on a configuration only such a step gives 0; the example is the
source's vector with its checksum. -/
theorem crcResidue : Obligations.CrcResidue := by
  refine ⟨crc8_concat_checksum, fun c seed b p => ?_, fun c => ?_⟩
  · rw [crc8_concat, crc8Step_eq_zero_iff (crcPoly_msb c), eq_comm]
  · have h := crc8_concat_checksum c.params.crcPoly 0xFF [0x88, 0x00, 0x01]
    rwa [crc8_sourceVector] at h

/-- Settles O26: the constraint that an instance carries, and three closed steps for each polynomial. -/
theorem crcSourceVector : Obligations.CrcSourceVector := by
  refine ⟨crc8_sourceVector, ?_, ?_⟩ <;> decide

/-- Settles O27: the shift is determined by its law, and the CRC is a fold. -/
theorem crcStepAndSequence : Obligations.CrcStepAndSequence := by
  refine fun poly seed c b s t => ⟨fun shift h => ?_, rfl, rfl, crc8_append poly seed s t⟩
  rw [eq_crcShift h]
  rfl

end Sys2Proof.Machine
end

section
/-! PROOFS. The CRC commands and the host's write of `CRC` (40_crc.md R105 to R108). -/

namespace Sys2Proof.Machine

/-- Settles O23: the opcode 0x01 decodes to CRC_INIT with every `IMM8`. -/
theorem crcInitEffect : Obligations.CrcInitEffect := fun _ =>
  commandTakes_of_exec .crcInit (fun _ => rfl) rfl

/-- Settles O24: the opcode 0x02 decodes to CRC_BYTE of its `IMM8`; the corner cases are laws of the step. -/
theorem crcByteEffect : Obligations.CrcByteEffect :=
  ⟨fun _ => commandRuns_of_exec (c := .crcByte) (fun _ => rfl) fun _ => rfl, crc8Step_self, crc8Step_zero_top,
    by decide, by decide⟩

/-- Settles O25, by the two outcomes of CRC_RANGE. -/
theorem crcRangeEffect : Obligations.CrcRangeEffect := by
  refine fun s => ⟨fun hsrc => ?_, fun hpast => ?_⟩
  · refine ⟨s.sourceBytes, _, readsSource_sourceBytes s, rfl, commandTakes_of_exec .crcRange (fun _ => rfl) ?_⟩
    rcases execCrcRange_cases s with ⟨hbad, -⟩ | ⟨-, hrun⟩
    · exact absurd hsrc hbad
    · exact hrun
  · refine commandTakes_of_exec .crcRange (fun _ => rfl) ?_
    rcases execCrcRange_cases s with ⟨-, hrun⟩ | ⟨hsrc, -⟩
    · exact hrun
    · exact absurd hsrc (Nat.not_le_of_lt hpast)

/-- Settles O30: both registers store bits 7:0 of the word, and CRC_INIT copies the one to the other. -/
theorem hostWriteOfCrc : Obligations.HostWriteOfCrc := fun s v =>
  ⟨_, _, exec_regWrite_of_patternOk (r := .SEED) rfl s, rfl,
    (BitVec.setWidth_eq_extractLsb' (by decide : 8 ≤ 32)).symm, exec_regWrite_of_patternOk (r := .CRC) rfl s⟩

end Sys2Proof.Machine
end

section
/-! PROOFS. The CAN identifiers: the functions `encode` and `decode`, the two commands, the number of rejected upper
halves (41_canid.md R121 to R127). -/

namespace Sys2Proof.Machine

/-! ## The functions -/

/-- The upper half, as the statements spell it. -/
theorem setWidth_ushiftRight_16 (w : Word) : (w >>> 16).setWidth 16 = w.extractLsb' 16 16 :=
  BitVec.setWidth_ushiftRight_eq_extractLsb

/-- The lower half, as the statements spell it. -/
theorem setWidth_16 (w : Word) : w.setWidth 16 = w.extractLsb' 0 16 :=
  BitVec.setWidth_eq_extractLsb' (by decide : 16 ≤ 32)

/-- Two halves put together are the word that R121 writes. -/
theorem append_eq_shiftLeft_or (u a : Half) : (u ++ a : Word) = (u.setWidth 32 <<< 16) ||| a.setWidth 32 := by
  have h : (u ++ a : Word) = u.shiftLeftZeroExtend 16 ||| a.setWidth' (by decide : 16 ≤ 32) := BitVec.append_def u a
  rw [h, BitVec.shiftLeftZeroExtend_eq, BitVec.setWidth'_eq]

/-- A word is two halves put together exactly when they are its halves. -/
theorem append_eq_iff (u a : Half) (w : Word) :
    (u ++ a : Word) = w ↔ w.extractLsb' 16 16 = u ∧ w.extractLsb' 0 16 = a := by
  constructor
  · rintro rfl
    exact (halves_of_append u a).symm
  · rintro ⟨rfl, rfl⟩
    exact append_of_halves w

/-- `encode` puts the `CANID_PACK` above the sender (R121). -/
theorem canidEncode_of_canidPack {p : Params} {g m b : Byte} {u : Half} (h : canidPack p g m b = some u) (a : Half) :
    canidEncode p g m b a = some (u ++ a) := by
  rw [canidEncode, h]
  rfl

/-- `encode` gives the words whose upper half is the `CANID_PACK` and whose lower half is the sender (R121). -/
theorem canidEncode_eq_some_iff (p : Params) (g m b : Byte) (a : Half) (w : Word) :
    canidEncode p g m b a = some w ↔ canidPack p g m b = some (w.extractLsb' 16 16) ∧ w.extractLsb' 0 16 = a := by
  unfold canidEncode
  cases canidPack p g m b with
  | none => simp
  | some u => simp only [Option.map_some, Option.some.injEq, append_eq_iff, eq_comm (a := u)]

/-- `decode` gives the triple of the upper half, and the lower half (R122). -/
theorem canidDecode_eq_some_iff_canidPack (c : Config) (w : Word) (g m b : Byte) (a : Half) :
    canidDecode c.params w = some (g, m, b, a) ↔
      canidPack c.params g m b = some (w.extractLsb' 16 16) ∧ w.extractLsb' 0 16 = a := by
  rw [canidPack_eq_some_iff, ← canidUnpack_eq_some_iff]
  unfold canidDecode
  cases canidUnpack c.params (w.extractLsb' 16 16) with
  | none => simp
  | some fields => obtain ⟨g', m', b'⟩ := fields; simp [and_assoc]

/-- `decode` and `encode` are inverse to each other (R126). -/
theorem canidDecode_eq_some_iff_canidEncode (c : Config) (w : Word) (g m b : Byte) (a : Half) :
    canidDecode c.params w = some (g, m, b, a) ↔ canidEncode c.params g m b a = some w :=
  (canidDecode_eq_some_iff_canidPack c w g m b a).trans (canidEncode_eq_some_iff c.params g m b a w).symm

/-- `encode` has a value on the whole of its domain (R120). -/
theorem exists_canidEncode_eq_some (c : Config) {g m : Byte} (hg : g ∈ c.params.groups) (hm : m ∈ c.params.modes)
    (b : Byte) (a : Half) : ∃ w, canidEncode c.params g m b a = some w := by
  obtain ⟨u, hu⟩ := (exists_canidPack_eq_some_iff c g m b).2 ⟨hg, hm⟩
  exact ⟨u ++ a, canidEncode_of_canidPack hu a⟩

/-- `decode` rejects a word exactly when its upper half has no triple (R122). -/
theorem isNone_canidDecode (p : Params) (w : Word) :
    (canidDecode p w).isNone = (canidUnpack p (w.extractLsb' 16 16)).isNone := Option.isNone_map

/-! ## The commands -/

variable {s : State}

/-- ID_ENCODE in the domain of `encode` (R123). -/
theorem exec_idEncode_of_canidEncode {w : Word}
    (h : canidEncode s.cfg.params s.idGroup s.idMode s.idCommand s.sender = some w) :
    exec .idEncode s = .next { s with canid := w }.succeed := by
  have hdomain : s.idGroup ∈ s.cfg.params.groups ∧ s.idMode ∈ s.cfg.params.modes :=
    (exists_canidPack_eq_some_iff s.cfg _ _ _).1 ⟨_, ((canidEncode_eq_some_iff _ _ _ _ _ _).1 h).1⟩
  rcases execIdEncode_cases s with ⟨hnone, -⟩ | ⟨-, w', hw', hrun⟩
  · cases h.symm.trans (hnone hdomain)
  · cases h.symm.trans hw'
    exact hrun

theorem exec_idEncode_of_not_domain (h : ¬ (s.idGroup ∈ s.cfg.params.groups ∧ s.idMode ∈ s.cfg.params.modes)) :
    exec .idEncode s = .next (s.raise .unknownEncoding) := by
  rcases execIdEncode_cases s with ⟨-, hrun⟩ | ⟨hdomain, -⟩
  · exact hrun
  · exact absurd hdomain h

/-- ID_DECODE of a word that decodes (R124). -/
theorem exec_idDecode_of_canidDecode {g m b : Byte} {a : Half}
    (h : canidDecode s.cfg.params s.canid = some (g, m, b, a)) :
    exec .idDecode s = .next { s with idGroup := g, idMode := m, idCommand := b, sender := a }.succeed := by
  rcases execIdDecode_cases s with ⟨hnone, -⟩ | ⟨g', m', b', a', hsome, hrun⟩
  · cases h.symm.trans hnone
  · cases h.symm.trans hsome
    exact hrun

/-- ID_DECODE of the word that encodes the fields already in `IDF` and `SENDER` (R126). -/
theorem exec_idDecode_of_canidEncode
    (h : canidEncode s.cfg.params s.idGroup s.idMode s.idCommand s.sender = some s.canid) :
    exec .idDecode s = .next s.succeed :=
  exec_idDecode_of_canidDecode ((canidDecode_eq_some_iff_canidEncode s.cfg _ _ _ _ _).2 h)

theorem exec_idDecode_of_canidDecode_eq_none (h : canidDecode s.cfg.params s.canid = none) :
    exec .idDecode s = .next (s.raise .unknownEncoding) := by
  rcases execIdDecode_cases s with ⟨-, hrun⟩ | ⟨_, _, _, _, hsome, -⟩
  · exact hrun
  · cases h.symm.trans hsome

/-- Settles O31: in the domain `CANID_PACK` has a value, and outside it the command fails. -/
theorem idEncodeEffect : Obligations.IdEncodeEffect := by
  refine fun s => ⟨fun hdomain => ?_, fun hdomain =>
    commandTakes_of_exec .idEncode (fun _ => rfl) (exec_idEncode_of_not_domain hdomain)⟩
  obtain ⟨u, hu⟩ := (exists_canidPack_eq_some_iff s.cfg _ _ s.idCommand).2 hdomain
  refine ⟨u, hu, commandTakes_of_exec .idEncode (fun _ => rfl) ?_⟩
  rw [← append_eq_shiftLeft_or]
  exact exec_idEncode_of_canidEncode (canidEncode_of_canidPack hu s.sender)

/-- Settles O32: the upper half has a triple or none; the lower half is the sender. -/
theorem idDecodeEffect : Obligations.IdDecodeEffect := by
  intro s
  rw [setWidth_ushiftRight_16, setWidth_16]
  refine ⟨fun g m b hpack => ?_, fun hpack => ?_⟩ <;> refine commandTakes_of_exec .idDecode (fun _ => rfl) ?_
  · exact exec_idDecode_of_canidDecode ((canidDecode_eq_some_iff_canidPack s.cfg _ g m b _).2 ⟨hpack, rfl⟩)
  · refine exec_idDecode_of_canidDecode_eq_none (Option.eq_none_iff_forall_ne_some.2 fun ⟨g, m, b, a⟩ hsome => ?_)
    exact hpack g m b ((canidDecode_eq_some_iff_canidPack s.cfg _ g m b a).1 hsome).1

/-- Settles O33: `decode` inverts `encode`, so ID_DECODE writes back the fields that ID_ENCODE packed. -/
theorem idRoundTrip : Obligations.IdRoundTrip := by
  refine fun c => ⟨fun g hg m hm b a => ?_, fun w g m b a => (canidDecode_eq_some_iff_canidEncode c w g m b a).1,
    fun s t hg hm hrun => ?_⟩
  · obtain ⟨w, hw⟩ := exists_canidEncode_eq_some c hg hm b a
    exact ⟨w, hw, (canidDecode_eq_some_iff_canidEncode c w g m b a).2 hw⟩
  · obtain ⟨w, hw⟩ := exists_canidEncode_eq_some s.cfg hg hm s.idCommand s.sender
    cases (exec_idEncode_of_canidEncode hw).symm.trans hrun
    exact ⟨exec_idDecode_of_canidEncode hw, rfl, rfl, rfl⟩

/-- Settles O34: the lower half of the word that `encode` gives or `decode` takes is the sender. -/
theorem senderIsLowerHalf : Obligations.SenderIsLowerHalf := by
  intro s t herr
  rw [setWidth_16]
  refine ⟨fun hrun => ?_, fun hrun => ?_⟩
  · rcases execIdEncode_cases s with ⟨-, e⟩ | ⟨-, w, hw, e⟩ <;> cases e.symm.trans hrun
    · cases herr
    · exact ((canidEncode_eq_some_iff _ _ _ _ _ _).1 hw).2
  · rcases execIdDecode_cases s with ⟨-, e⟩ | ⟨g, m, b, a, hsome, e⟩ <;> cases e.symm.trans hrun
    · cases herr
    · exact ((canidDecode_eq_some_iff_canidPack s.cfg _ _ _ _ _).1 hsome).2.symm

/-! ## Counting the rows of `CANID_PACK` -/

/-- The triple of a row. -/
def rowTriple (r : PackRow) : Byte × Byte × Byte := (r.group, r.mode, r.command)

/-- Every command byte once. -/
def commandBytes : List Byte := (List.finRange 256).map BitVec.ofFin

theorem mem_commandBytes (b : Byte) : b ∈ commandBytes :=
  List.mem_map.2 ⟨b.toFin, List.mem_finRange _, rfl⟩

theorem commandBytes_nodup : commandBytes.Nodup :=
  (List.nodup_finRange 256).map fun _ _ => BitVec.ofFin.inj

theorem length_commandBytes : commandBytes.length = 256 := by
  rw [commandBytes, List.length_map, List.length_finRange]

/-- The graph has one row for each triple of the domain (00_scope.md R6). -/
theorem map_rowTriple_perm (c : Config) :
    (c.params.packRows.map rowTriple).Perm (c.params.groups ×ˢ (c.params.modes ×ˢ commandBytes)) := by
  have hrows : (c.params.packRows.map rowTriple).Nodup :=
    List.pairwise_map.2 <| c.valid.canid.functional.imp fun hne h => hne (by simpa [rowTriple] using h)
  have hdomain : (c.params.groups ×ˢ (c.params.modes ×ˢ commandBytes)).Nodup :=
    c.valid.canid.groups_nodup.product (c.valid.canid.modes_nodup.product commandBytes_nodup)
  refine (List.perm_ext_iff_of_nodup hrows hdomain).2 fun ⟨g, m, b⟩ => ?_
  rw [List.mem_product, List.mem_product, and_iff_left (mem_commandBytes b), List.mem_map]
  constructor
  · rintro ⟨r, hrow, htriple⟩
    cases htriple
    exact c.valid.canid.domain r hrow
  · rintro ⟨hg, hm⟩
    obtain ⟨r, hrow, rfl, rfl, rfl⟩ := c.valid.canid.total g hg m hm b
    exact ⟨r, hrow, rfl⟩

theorem length_packRows (c : Config) :
    c.params.packRows.length = 256 * c.params.groups.length * c.params.modes.length := by
  calc c.params.packRows.length
    _ = (c.params.packRows.map rowTriple).length := (List.length_map _).symm
    _ = (c.params.groups ×ˢ (c.params.modes ×ˢ commandBytes)).length := (map_rowTriple_perm c).length_eq
    _ = c.params.groups.length * (c.params.modes.length * 256) := by
      rw [List.length_product, List.length_product, length_commandBytes]
    _ = 256 * c.params.groups.length * c.params.modes.length := by ring

/-- An upper half has a triple exactly when a row has it as its code. -/
theorem isSome_canidUnpack_iff (p : Params) (u : Half) :
    (canidUnpack p u).isSome ↔ u ∈ p.packRows.map PackRow.code := by
  rw [canidUnpack, Option.isSome_map, List.find?_isSome, List.mem_map]
  simp only [decide_eq_true_eq]

/-- The upper halves that have a triple are the codes of the rows, each of one row only. -/
theorem filter_isSome_canidUnpack_perm (c : Config) :
    ((List.range 65536).filter fun n => (canidUnpack c.params (BitVec.ofNat 16 n)).isSome).Perm
      ((c.params.packRows.map PackRow.code).map BitVec.toNat) := by
  have hcodes : ((c.params.packRows.map PackRow.code).map BitVec.toNat).Nodup :=
    List.Nodup.map (fun _ _ => BitVec.eq_of_toNat_eq) (List.pairwise_map.2 c.valid.canid.injective)
  refine (List.perm_ext_iff_of_nodup (List.nodup_range.filter _) hcodes).2 fun n => ?_
  rw [List.mem_filter, List.mem_range, isSome_canidUnpack_iff, List.mem_map (f := BitVec.toNat)]
  constructor
  · rintro ⟨hn, hcode⟩
    exact ⟨_, hcode, (BitVec.toNat_ofNat n 16).trans (Nat.mod_eq_of_lt hn)⟩
  · rintro ⟨u, hcode, rfl⟩
    rw [BitVec.ofNat_toNat, BitVec.setWidth_eq]
    exact ⟨u.isLt, hcode⟩

/-- The upper halves with a triple and those without one make up the 65536 (R127). -/
theorem length_packRows_add_rejected (c : Config) :
    c.params.packRows.length +
      ((List.range 65536).filter fun n => (canidUnpack c.params (BitVec.ofNat 16 n)).isNone).length = 65536 := by
  have h := (List.range 65536).length_eq_length_filter_add fun n => (canidUnpack c.params (BitVec.ofNat 16 n)).isSome
  rw [(filter_isSome_canidUnpack_perm c).length_eq, List.length_map, List.length_map, List.length_range] at h
  simpa only [Option.not_isSome] using h.symm

/-- Settles O35: the accepted upper halves are as many as the rows, and there are 65536 upper halves. -/
theorem idCapacity : Obligations.IdCapacity := by
  intro c
  have hcount := length_packRows_add_rejected c
  rw [length_packRows, mul_assoc] at hcount
  refine ⟨by omega, ?_, fun w w' hupper => ?_⟩
  · simp only [isNone_canidDecode, (halves_of_append _ _).2]
    rw [mul_assoc]
    omega
  · rw [isNone_canidDecode, isNone_canidDecode, ← setWidth_ushiftRight_16, ← setWidth_ushiftRight_16, hupper]

end Sys2Proof.Machine
end

section
/-! PROOFS. The byte-stuffing framer: sentinels, escape, unescape, the escaped size and the frame
(42_stuffing.md R140 to R146). -/

namespace Sys2Proof.Machine

/-! ## Sentinels -/

theorem isSentinel_iff_mem (p : Params) (b : Byte) : isSentinel p b ↔ b ∈ [p.soh, p.eot, p.dle] := by
  simp only [List.mem_cons, List.not_mem_nil, or_false]

/-- No sentinel is among the bytes that the source's vectors exclude (00_scope.md R4 (b)). -/
theorem not_isSentinel_of_mem_nonSentinels (c : Config) {b : Byte} (hb : b ∈ Params.nonSentinels) :
    ¬ isSentinel c.params b :=
  fun h => c.valid.sentinels.2.1 b ((isSentinel_iff_mem _ b).1 h) hb

/-- The escape transform takes a sentinel to no sentinel (00_scope.md R4 (c)). -/
theorem not_isSentinel_escapeXor (c : Config) {b : Byte} (hb : isSentinel c.params b) :
    ¬ isSentinel c.params (escapeXor b) := fun h =>
  c.valid.sentinels.2.2 b ((isSentinel_iff_mem _ b).1 hb) _ ((isSentinel_iff_mem _ _).1 h) rfl

/-- Settles O19: the three constraints on sentinels that an instance carries. -/
theorem sentinelSet : Obligations.SentinelSet := by
  refine fun c => ⟨isSentinel_iff_mem c.params, ?_, fun _ => not_isSentinel_of_mem_nonSentinels c,
    fun _ => not_isSentinel_escapeXor c⟩
  obtain ⟨hse, hsd, hed⟩ := c.valid.sentinels.1
  simp [hse, hsd, hed]

/-! ## Escape and the escaped size -/

theorem escByte_of_isSentinel {p : Params} {b : Byte} (h : isSentinel p b) : escByte p b = [p.dle, escapeXor b] :=
  if_pos h

theorem escByte_of_not_isSentinel {p : Params} {b : Byte} (h : ¬ isSentinel p b) : escByte p b = [b] :=
  if_neg h

/-- Settles O36: the two branches of the escape of a byte, and the fold over a sequence. -/
theorem escapeEquations : Obligations.EscapeEquations := fun p b raw =>
  ⟨escByte_of_isSentinel, escByte_of_not_isSentinel, rfl, escape_cons p b raw⟩

/-- A byte's part of the escaped size is the length of its escaped form. -/
theorem escapedSize_cons (p : Params) (b : Byte) (raw : List Byte) :
    escapedSize p (b :: raw) = (escByte p b).length + escapedSize p raw := by
  by_cases h : isSentinel p b
  · rw [escByte_of_isSentinel h]
    simp only [escapedSize, List.countP_cons, h, decide_true, if_true, List.length_cons, List.length_nil]
    omega
  · rw [escByte_of_not_isSentinel h]
    simp only [escapedSize, List.countP_cons, h, decide_false, Bool.false_eq_true, if_false, List.length_cons,
      List.length_nil]
    omega

theorem length_escape (p : Params) (raw : List Byte) : (Machine.escape p raw).length = escapedSize p raw := by
  induction raw with
  | nil => rfl
  | cons b raw ih => rw [escape_cons, List.length_append, ih, escapedSize_cons]

/-- Settles O38: the count is the length of the filtered list, and it is at most the length. -/
theorem escapedSizeLaws : Obligations.EscapedSizeLaws := fun p raw =>
  ⟨congrArg (raw.length + ·) List.countP_eq_length_filter, (length_escape p raw).symm, Nat.le_add_right _ _,
    escapedSize_le p raw⟩

/-- The escaped form is longer by the sentinels, so it is the sequence itself exactly without them (R146 (d)). -/
theorem escape_eq_self_iff (p : Params) (raw : List Byte) :
    Machine.escape p raw = raw ↔ ∀ b ∈ raw, ¬ isSentinel p b := by
  constructor
  · intro h
    have hlength : escapedSize p raw = raw.length := by rw [← length_escape, h]
    have hcount : raw.countP (fun b => isSentinel p b) = 0 := Nat.left_eq_add.1 hlength.symm
    simpa only [List.countP_eq_zero, decide_eq_true_iff] using hcount
  · intro h
    induction raw with
    | nil => rfl
    | cons b raw ih =>
      obtain ⟨hb, hraw⟩ := List.forall_mem_cons.1 h
      rw [escape_cons, escByte_of_not_isSentinel hb, ih hraw, List.singleton_append]

/-! ## Unescape -/

theorem unescape_pair (p : Params) (x : Byte) (e : List Byte) :
    Machine.unescape p (p.dle :: x :: e) = (Machine.unescape p e).map (escapeXor x :: ·) :=
  unescapeFrom_dle p _

theorem unescape_literal (p : Params) {b : Byte} (h : b ≠ p.dle) (e : List Byte) :
    Machine.unescape p (b :: e) = (Machine.unescape p e).map (b :: ·) :=
  unescapeFrom_literal p h e

/-- Settles O37, along the branches of the scan. -/
theorem unescapeEquations : Obligations.UnescapeEquations := fun p _ x e =>
  ⟨rfl, unescapeFrom_dle p [], unescape_pair p x e, fun h => unescape_literal p h e⟩

/-- The escaped form of one byte unescapes to that byte, whatever follows. -/
theorem unescape_escByte_append (p : Params) (b : Byte) (e : List Byte) :
    Machine.unescape p (escByte p b ++ e) = (Machine.unescape p e).map (b :: ·) := by
  by_cases h : isSentinel p b
  · rw [escByte_of_isSentinel h]
    exact (unescape_pair p _ e).trans (by rw [escapeXor_escapeXor])
  · rw [escByte_of_not_isSentinel h]
    exact unescape_literal p (fun hdle => h (.inr (.inr hdle))) e

/-- R146 (a). -/
theorem unescape_escape (p : Params) (raw : List Byte) : Machine.unescape p (Machine.escape p raw) = some raw := by
  induction raw with
  | nil => rfl
  | cons b raw ih => rw [escape_cons, unescape_escByte_append, ih, Option.map_some]

/-! ## What stands in an escaped form -/

theorem eq_dle_or_not_isSentinel_of_mem_escByte {c : Config} {b x : Byte} (hx : x ∈ escByte c.params b) :
    x = c.params.dle ∨ ¬ isSentinel c.params x := by
  by_cases h : isSentinel c.params b
  · rw [escByte_of_isSentinel h, List.mem_pair] at hx
    rcases hx with rfl | rfl
    · exact .inl rfl
    · exact .inr (not_isSentinel_escapeXor c h)
  · rw [escByte_of_not_isSentinel h, List.mem_singleton] at hx
    exact .inr (hx ▸ h)

/-- The only sentinel in an escaped form is `DLE`. -/
theorem eq_dle_of_mem_escape {c : Config} {raw : List Byte} {x : Byte} (hx : x ∈ Machine.escape c.params raw)
    (hs : isSentinel c.params x) : x = c.params.dle := by
  obtain ⟨b, -, hxb⟩ := List.mem_flatMap.1 hx
  exact (eq_dle_or_not_isSentinel_of_mem_escByte hxb).resolve_right (not_not.2 hs)

theorem soh_notMem_escape (c : Config) (raw : List Byte) : c.params.soh ∉ Machine.escape c.params raw :=
  fun h => c.valid.sentinels.1.2.1 (eq_dle_of_mem_escape h (.inl rfl))

theorem eot_notMem_escape (c : Config) (raw : List Byte) : c.params.eot ∉ Machine.escape c.params raw :=
  fun h => c.valid.sentinels.1.2.2 (eq_dle_of_mem_escape h (.inr (.inl rfl)))

/-- A `DLE` in the escaped form of one byte is its first byte, and the byte is a sentinel: neither a literal nor a
transformed byte is a `DLE`. -/
theorem escByte_eq_append_dle {c : Config} {b : Byte} {pre post : List Byte}
    (h : escByte c.params b = pre ++ c.params.dle :: post) : isSentinel c.params b ∧ post = [escapeXor b] := by
  have hdle : isSentinel c.params c.params.dle := .inr (.inr rfl)
  by_cases hb : isSentinel c.params b
  · rw [escByte_of_isSentinel hb] at h
    rcases pre with _ | ⟨y, pre⟩
    · exact ⟨hb, (List.cons.inj h).2.symm⟩
    · have hmem : c.params.dle ∈ [escapeXor b] := by rw [(List.cons.inj h).2]; simp
      exact absurd (List.mem_singleton.1 hmem ▸ hdle) (not_isSentinel_escapeXor c hb)
  · have hmem : c.params.dle ∈ [b] := by rw [← escByte_of_not_isSentinel hb, h]; simp
    exact absurd (List.mem_singleton.1 hmem ▸ hdle) hb

/-- R146 (b): every `DLE` in an escaped form begins a pair. -/
theorem escape_eq_append_dle {c : Config} {raw pre post : List Byte}
    (h : Machine.escape c.params raw = pre ++ c.params.dle :: post) :
    ∃ b rest, isSentinel c.params b ∧ post = escapeXor b :: rest := by
  induction raw generalizing pre with
  | nil => exact absurd h (by simp [Machine.escape])
  | cons b raw ih =>
    rw [escape_cons, List.append_eq_append_iff] at h
    rcases h with ⟨pre', -, htail⟩ | ⟨_ | ⟨x, rest⟩, hhead, htail⟩
    · exact ih htail
    · exact ih (pre := []) htail.symm
    · obtain ⟨rfl, rfl⟩ := List.cons.inj htail
      obtain ⟨hb, rfl⟩ := escByte_eq_append_dle hhead
      exact ⟨b, _, hb, rfl⟩

/-! ## The frame -/

theorem length_frame (p : Params) (seed : Byte) (payload : List Byte) :
    (Machine.frame p seed payload).length = 2 + escapedSize p (payload ++ [crc8 p.crcPoly seed payload]) := by
  simp only [Machine.frame, List.length_append, List.length_singleton, length_escape]
  omega

theorem count_soh_frame (c : Config) (seed : Byte) (payload : List Byte) :
    (Machine.frame c.params seed payload).count c.params.soh = 1 := by
  have hne : c.params.eot ≠ c.params.soh := c.valid.sentinels.1.1.symm
  simp only [Machine.frame, List.count_append, List.count_singleton_self, List.count_singleton, beq_iff_eq, hne,
    List.count_eq_zero_of_not_mem (soh_notMem_escape c _), if_false]

theorem count_eot_frame (c : Config) (seed : Byte) (payload : List Byte) :
    (Machine.frame c.params seed payload).count c.params.eot = 1 := by
  have hne : c.params.soh ≠ c.params.eot := c.valid.sentinels.1.1
  simp only [Machine.frame, List.count_append, List.count_singleton_self, List.count_singleton, beq_iff_eq, hne,
    List.count_eq_zero_of_not_mem (eot_notMem_escape c _), if_false]

/-- Settles O39: (a) to (d) of R146, each a law of its own. -/
theorem stuffingLaws : Obligations.StuffingLaws := fun c raw seed =>
  ⟨unescape_escape c.params raw, ⟨soh_notMem_escape c raw, eot_notMem_escape c raw⟩,
    fun _ _ => escape_eq_append_dle,
    ⟨rfl, count_soh_frame c seed raw, List.getLast?_concat, count_eot_frame c seed raw⟩,
    escape_eq_self_iff c.params raw⟩

end Sys2Proof.Machine
end

section
/-! PROOFS. The stuffing commands (42_stuffing.md R150 to R153). -/

namespace Sys2Proof.Machine

/-- Settles O40, by the two outcomes of ESC_SIZE. -/
theorem escSizeEffect : Obligations.EscSizeEffect := by
  refine fun s => ⟨fun hsrc => ?_, fun hpast => ?_⟩
  · refine ⟨s.sourceBytes, readsSource_sourceBytes s, commandTakes_of_exec .escSize (fun _ => rfl) ?_⟩
    rcases execEscSize_cases s with ⟨hbad, -⟩ | ⟨-, hrun⟩
    · exact absurd hsrc hbad
    · exact hrun
  · refine commandTakes_of_exec .escSize (fun _ => rfl) ?_
    rcases execEscSize_cases s with ⟨-, hrun⟩ | ⟨hsrc, -⟩
    · exact hrun
    · exact absurd hsrc (Nat.not_le_of_lt hpast)

/-! ## The outcomes of a writing command, in the order of checks of R223 -/

section Transform

variable {s : State} {f : List Byte → Except ErrCode (List Byte)} {e : ErrCode} {out : List Byte}

theorem State.transform_of_not_ranges (h : ¬ (s.SrcOK ∧ s.DstOK ∧ s.Disjoint)) :
    s.transform f = Failed s .rangeError := by
  by_cases hranges : s.SrcOK ∧ s.DstOK
  · rw [State.transform, if_neg (not_not.2 hranges), if_pos fun hdisj => h ⟨hranges.1, hranges.2, hdisj⟩]
    rfl
  · exact if_pos hranges

theorem State.transform_of_error (h : s.SrcOK ∧ s.DstOK ∧ s.Disjoint) (hf : f s.sourceBytes = .error e) :
    s.transform f = FailedAfterRead s e := by
  obtain ⟨hsrc, hdst, hdisj⟩ := h
  rw [State.transform, if_neg (not_not.2 ⟨hsrc, hdst⟩), if_neg (not_not.2 hdisj), hf]
  rfl

theorem State.transform_of_ok (h : s.SrcOK ∧ s.DstOK ∧ s.Disjoint) (hf : f s.sourceBytes = .ok out) :
    s.transform f =
      if s.cap.toNat < out.length then FailedAfterRead s .bufferTooSmall
      else { s.sourceRead with buf := s.buf.writeAll s.dst.toNat out }.finish (BitVec.ofNat 32 out.length) := by
  obtain ⟨hsrc, hdst, hdisj⟩ := h
  rw [State.transform, if_neg (not_not.2 ⟨hsrc, hdst⟩), if_neg (not_not.2 hdisj), hf]
  rfl

/-- The read after a write of several bytes gives the bytes of `BUF`. -/
theorem State.storedOutput_transform (h : s.SrcOK ∧ s.DstOK ∧ s.Disjoint) (hf : f s.sourceBytes = .ok out)
    (hfits : out.length ≤ s.cap.toNat) : StoredOutput s (s.transform f) out := by
  rw [State.transform_of_ok h hf, if_neg (Nat.not_lt_of_le hfits)]
  exact ⟨rfl, fun _ => Memory.read?_writeAll⟩

/-- A command whose meaning is `transform f`, in all its words: out of range, an error of `f`, an output that does not
fit, an output stored. -/
theorem commandTakes_transform {op : Byte} (c : Command) (hd : ∀ imm8, decodeOpcode op imm8 = .ok c)
    (hrun : exec c.toInstr s = .next (s.transform f)) :
    (¬ (s.SrcOK ∧ s.DstOK ∧ s.Disjoint) → CommandTakes op c.toInstr s (Failed s .rangeError)) ∧
    (s.SrcOK ∧ s.DstOK ∧ s.Disjoint → ∀ e, f s.sourceBytes = .error e →
      CommandTakes op c.toInstr s (FailedAfterRead s e)) ∧
    (s.SrcOK ∧ s.DstOK ∧ s.Disjoint → ∀ out, f s.sourceBytes = .ok out → s.cap.toNat < out.length →
      CommandTakes op c.toInstr s (FailedAfterRead s .bufferTooSmall)) ∧
    (s.SrcOK ∧ s.DstOK ∧ s.Disjoint → ∀ out, f s.sourceBytes = .ok out → out.length ≤ s.cap.toNat →
      ∃ t, CommandTakes op c.toInstr s t ∧ StoredOutput s t out) := by
  have htakes : CommandTakes op c.toInstr s (s.transform f) := commandTakes_of_exec c hd hrun
  refine ⟨fun h => ?_, fun h e hf => ?_, fun h out hf hsmall => ?_, fun h out hf hfits => ?_⟩
  · exact State.transform_of_not_ranges h ▸ htakes
  · exact State.transform_of_error h hf ▸ htakes
  · exact (State.transform_of_ok h hf).trans (if_pos hsmall) ▸ htakes
  · exact ⟨_, htakes, State.storedOutput_transform h hf hfits⟩

end Transform

/-- Settles O41: the escaped form always exists. -/
theorem escapeEffect : Obligations.EscapeEffect := by
  intro s
  obtain ⟨hrange, -, hsmall, hfits⟩ := commandTakes_transform (s := s) (op := 0x21) .escape (fun _ => rfl) rfl
  exact ⟨s.sourceBytes, _, readsSource_sourceBytes s, rfl, hrange, fun h => hsmall h _ rfl, fun h => hfits h _ rfl⟩

/-- Settles O42: a source without an unescaped form is the error of the transform. -/
theorem unescapeEffect : Obligations.UnescapeEffect := by
  intro s
  obtain ⟨hrange, herror, hsmall, hfits⟩ :=
    commandTakes_transform (s := s) (op := 0x22) .unescape (fun _ => rfl) rfl
  refine ⟨s.sourceBytes, _, readsSource_sourceBytes s, rfl, hrange, fun h hnone => ?_, fun h out hsome => ?_,
    fun h out hsome => ?_⟩
  · exact herror h .truncatedEscape (by simp only [hnone])
  · exact hsmall h out (by simp only [hsome])
  · exact hfits h out (by simp only [hsome])

/-- Settles O43: the frame always exists, and its length is two more than an escaped size. -/
theorem frameEffect : Obligations.FrameEffect := by
  intro s
  obtain ⟨hrange, -, hsmall, hfits⟩ := commandTakes_transform (s := s) (op := 0x23) .frame (fun _ => rfl) rfl
  exact ⟨s.sourceBytes, _, readsSource_sourceBytes s, rfl, length_frame s.cfg.params s.seed s.sourceBytes, hrange,
    fun h => hsmall h _ rfl, fun h => hfits h _ rfl⟩

end Sys2Proof.Machine
end

section
/-! PROOFS. The receive deframer: its table, RX_RESET, the bytes dropped in `Idle`, the frame that is accepted
(43_deframer.md R170 to R186). -/

namespace Sys2Proof.Machine

/-! ## The cells of the table -/

section Cells

variable {s : State} {b : Byte}

theorem State.feed_of_idle (h : s.rxState = .idle) :
    s.feed b = if b = s.cfg.params.soh then { s with rxState := .inFrame, rxLen := 0 } else s := by
  rw [State.feed, h]

theorem State.feed_soh_of_ne_idle (h : s.rxState ≠ .idle) : s.feed s.cfg.params.soh = s.restart := by
  unfold State.feed
  cases hx : s.rxState with
  | idle => exact absurd hx h
  | inFrame => exact if_pos rfl
  | inEscape => exact if_pos rfl

theorem State.feed_eot_of_inFrame (h : s.rxState = .inFrame) : s.feed s.cfg.params.eot = s.endFrame := by
  obtain ⟨hne, -, -⟩ := s.cfg.valid.sentinels.1
  rw [State.feed, h]
  exact (if_neg hne.symm).trans (if_pos rfl)

theorem State.feed_eot_of_inEscape (h : s.rxState = .inEscape) : s.feed s.cfg.params.eot = s.truncated := by
  obtain ⟨hne, -, -⟩ := s.cfg.valid.sentinels.1
  rw [State.feed, h]
  exact (if_neg hne.symm).trans (if_pos rfl)

theorem State.feed_dle_of_inFrame (h : s.rxState = .inFrame) :
    s.feed s.cfg.params.dle = { s with rxState := .inEscape } := by
  obtain ⟨-, hsoh, heot⟩ := s.cfg.valid.sentinels.1
  rw [State.feed, h]
  exact (if_neg hsoh.symm).trans ((if_neg heot.symm).trans (if_pos rfl))

/-- A literal byte is appended; the state is written out as in the escaped case. -/
theorem State.feed_literal_of_inFrame (h : s.rxState = .inFrame) (hb : ¬ isSentinel s.cfg.params b) :
    s.feed b = { s with rxState := .inFrame }.append b := by
  obtain ⟨hsoh, heot, hdle⟩ : b ≠ s.cfg.params.soh ∧ b ≠ s.cfg.params.eot ∧ b ≠ s.cfg.params.dle := by
    simpa only [isSentinel, not_or] using hb
  have hself : { s with rxState := .inFrame } = s := by rw [← h]
  rw [hself, State.feed, h]
  exact (if_neg hsoh).trans ((if_neg heot).trans (if_neg hdle))

theorem State.feed_of_inEscape (h : s.rxState = .inEscape) (hsoh : b ≠ s.cfg.params.soh)
    (heot : b ≠ s.cfg.params.eot) : s.feed b = { s with rxState := .inFrame }.append (escapeXor b) := by
  rw [State.feed, h]
  exact (if_neg hsoh).trans (if_neg heot)

/-- The two outcomes of an append inside a frame (R172), with the memory read after the write. -/
theorem appendsByte_of_feed {v : Byte} (h : s.feed b = { s with rxState := .inFrame }.append v) :
    AppendsByte (.rxFeed b) s v := by
  have hrun : exec (.rxFeed b) s = .next ({ s with rxState := .inFrame }.append v) := congrArg _ h
  exact ⟨fun hfull => hrun.trans (congrArg _ (if_pos hfull)),
    fun hroom => ⟨_, hrun.trans (congrArg _ (if_neg hroom)), fun _ => Memory.read?_write⟩⟩

/-- The checksum check of R176, on the bytes that the frame reads as. -/
theorem State.checksumOk_iff (s : State) :
    s.checksumOk ↔ 1 ≤ s.rxLen.toNat ∧
      (s.rxbuf.bytesAt 0 s.rxLen.toNat s.draws)[s.rxLen.toNat - 1]? =
        some (crc8 s.cfg.params.crcPoly s.seed
          ((s.rxbuf.bytesAt 0 s.rxLen.toNat s.draws).take (s.rxLen.toNat - 1))) := by
  refine and_congr_right fun hpos => ?_
  rw [Memory.getElem?_bytesAt _ _ _ (by omega), Memory.take_bytesAt _ (Nat.sub_le _ _), Nat.zero_add,
    Option.some.injEq, eq_comm]

end Cells

/-- Settles O48, cell by cell. -/
theorem rxFeedTable : Obligations.RxFeedTable := by
  refine ⟨fun v => ?_, fun s b => ⟨fun h => congrArg _ (State.feed_of_idle h), ?_, ?_, ?_,
    fun h hb => appendsByte_of_feed (State.feed_literal_of_inFrame h hb), ?_,
    fun h hsoh heot => appendsByte_of_feed (State.feed_of_inEscape h hsoh heot)⟩⟩
  · rw [decodeTransaction_rxFeed, BitVec.setWidth_eq_extractLsb' (by decide : 8 ≤ 32)]
  · rintro h rfl
    exact congrArg _ (State.feed_soh_of_ne_idle h)
  · rintro h rfl
    refine ⟨_, reads_bytesAt _ _ _ _, congrArg _ ((State.feed_eot_of_inFrame h).trans ?_)⟩
    simp only [← s.checksumOk_iff]
    rfl
  · rintro h rfl
    exact congrArg _ (State.feed_dle_of_inFrame h)
  · rintro h rfl
    exact congrArg _ (State.feed_eot_of_inEscape h)

/-- Settles O49: the opcode 0x30 decodes to RX_RESET with every `IMM8`, and every field of `RXSTAT` is then 0. -/
theorem rxResetEffect : Obligations.RxResetEffect := fun _ =>
  ⟨_, rfl, commandTakes_of_exec .rxReset (fun _ => rfl) rfl,
    (by decide : (0#16 ++ 0#8 ++ 0#4 ++ 0#2 ++ 0#2 : Word) = 0)⟩

/-! ## Feeding a sequence of bytes -/

/-- `s` after the bytes have been fed one by one (R184). -/
def State.feedAll (s : State) (bytes : List Byte) : State := bytes.foldl State.feed s

section FeedAll

variable {s : State} {bytes : List Byte} {rest : List HostEvent}

@[simp] theorem State.feedAll_nil (s : State) : s.feedAll [] = s := rfl

@[simp] theorem State.feedAll_cons (s : State) (b : Byte) (bytes : List Byte) :
    s.feedAll (b :: bytes) = (s.feed b).feedAll bytes := rfl

theorem State.feedAll_append (s : State) (bytes more : List Byte) :
    s.feedAll (bytes ++ more) = (s.feedAll bytes).feedAll more := List.foldl_append

@[simp] theorem State.feed_cfg (s : State) (b : Byte) : (s.feed b).cfg = s.cfg := (s.feed_leaves_commands b).2.2

@[simp] theorem State.feed_seed (s : State) (b : Byte) : (s.feed b).seed = s.seed := (s.feed_leaves_commands b).2.1

@[simp] theorem State.feedAll_cfg (s : State) (bytes : List Byte) : (s.feedAll bytes).cfg = s.cfg := by
  induction bytes generalizing s with
  | nil => rfl
  | cons b bytes ih => rw [feedAll_cons, ih, feed_cfg]

@[simp] theorem State.feedAll_seed (s : State) (bytes : List Byte) : (s.feedAll bytes).seed = s.seed := by
  induction bytes generalizing s with
  | nil => rfl
  | cons b bytes ih => rw [feedAll_cons, ih, feed_seed]

/-- Fed bytes write the deframer's state and the count of draws only. -/
theorem State.feedAll_frame (s : State) (bytes : List Byte) :
    s.feedAll bytes = { s.withDeframerOf (s.feedAll bytes) with draws := (s.feedAll bytes).draws } := by
  induction bytes generalizing s with
  | nil => rfl
  | cons b bytes ih =>
    rw [feedAll_cons]
    refine (ih (s.feed b)).trans ?_
    rw [s.feed_frame b]
    rfl

/-- The pending events and the answer play no part in fed bytes. -/
theorem State.feedAll_with_host (s : State) (bytes : List Byte) (host : List HostEvent) (resp : BusResponse) :
    ({ s with host := host, resp := resp } : State).feedAll bytes =
      { s.feedAll bytes with host := host, resp := resp } := by
  induction bytes generalizing s with
  | nil => rfl
  | cons b bytes ih => rw [feedAll_cons, feed_with_host, ih, feedAll_cons]

/-- The run over the transactions that feed `bytes`. -/
theorem run_feedEvents (hhost : s.host = bytes.map feedEvent ++ rest) :
    Sys2Proof.core.run bytes.length s =
      .next { s.feedAll bytes with host := rest, resp := if bytes = [] then s.resp else .done } := by
  induction bytes generalizing s with
  | nil =>
    obtain rfl : s.host = rest := hhost
    rfl
  | cons b bytes ih =>
    have hstep := (step_feedEvent hhost).trans (congrArg _ (s.feed_with_host b _ .done))
    rw [List.length_cons, run_succ hstep, ih rfl, State.feedAll_with_host, ite_self, if_neg (List.cons_ne_nil b bytes)]
    rfl

/-- The run over the first `k` of the transactions that feed `bytes`. -/
theorem run_feedEvents_take (hhost : s.host = bytes.map feedEvent ++ rest) {k : Nat} (hk : k ≤ bytes.length) :
    ∃ host resp, Sys2Proof.core.run k s = .next { s.feedAll (bytes.take k) with host := host, resp := resp } := by
  have hsplit : s.host = (bytes.take k).map feedEvent ++ ((bytes.drop k).map feedEvent ++ rest) := by
    rw [hhost, ← List.append_assoc, ← List.map_append, List.take_append_drop]
  have hrun := run_feedEvents hsplit
  rw [List.length_take_of_le hk] at hrun
  exact ⟨_, _, hrun⟩

/-- In `Idle` bytes without `SOH` change nothing (R174). -/
theorem State.feedAll_of_idle (hidle : s.rxState = .idle) (hsoh : s.cfg.params.soh ∉ bytes) :
    s.feedAll bytes = s := by
  induction bytes with
  | nil => rfl
  | cons b bytes ih =>
    obtain ⟨hb, hbytes⟩ := List.ne_and_not_mem_of_not_mem_cons hsoh
    rw [feedAll_cons, feed_of_idle hidle, if_neg hb.symm, ih hbytes]

end FeedAll

/-- Settles O51: the run feeds the bytes, and in `Idle` each of them is dropped. -/
theorem idleDropsUntilSoh : Obligations.IdleDropsUntilSoh := by
  intro s bytes rest hidle hsoh hhost
  rw [run_feedEvents hhost, State.feedAll_of_idle hidle hsoh]

/-! ## A frame in progress -/

/-- The deframer is inside a frame, behind a `DLE` if `esc`, has received the bytes `raw` of it, and shows the event `e`
and the count `q`. -/
structure Receiving (u : State) (esc : Bool) (raw : List Byte) (e : RxEvent) (q : Byte) : Prop where
  state : u.rxState = if esc then .inEscape else .inFrame
  len : u.rxLen.toNat = raw.length
  stored : ∀ k, k < raw.length → u.rxbuf.read? k = raw[k]?
  evt : u.evt = e
  seq : u.seq = q

namespace Receiving

variable {u : State} {esc : Bool} {raw : List Byte} {e : RxEvent} {q : Byte}

theorem ne_idle (h : Receiving u esc raw e q) : u.rxState ≠ .idle := by
  rw [h.state]
  cases esc <;> nofun

/-- `SOH` starts a frame in every state, and posts ABORTED inside a frame (R174, R175, R179). -/
theorem feed_soh (s : State) :
    Receiving (s.feed s.cfg.params.soh) false [] (if s.rxState = .idle then s.evt else .aborted)
      (s.seq + if s.rxState = .idle then 0 else 1) := by
  by_cases hidle : s.rxState = .idle
  · rw [State.feed_of_idle hidle, if_pos rfl, if_pos hidle, if_pos hidle]
    exact ⟨rfl, rfl, nofun, rfl, (BitVec.add_zero _).symm⟩
  · rw [State.feed_soh_of_ne_idle hidle, if_neg hidle, if_neg hidle]
    exact ⟨rfl, rfl, nofun, rfl, rfl⟩

theorem feed_dle (h : Receiving u false raw e q) : Receiving (u.feed u.cfg.params.dle) true raw e q := by
  rw [State.feed_dle_of_inFrame h.state]
  exact { h with state := rfl }

/-- An appended byte that fits: the length does not wrap, because `RX_MAX` is at most 16384 (00_scope.md R8). -/
theorem append (h : Receiving u esc raw e q) (v : Byte) (hfits : raw.length < u.cfg.params.rxMax) :
    Receiving ({ u with rxState := .inFrame }.append v) false (raw ++ [v]) e q := by
  have hmax : u.cfg.params.rxMax ≤ 16384 := u.cfg.valid.numbers.2.2.2
  have hlen := h.len
  have happend : { u with rxState := .inFrame }.append v =
      { u with rxState := .inFrame, rxbuf := u.rxbuf.write u.rxLen.toNat v, rxLen := u.rxLen + 1 } :=
    if_neg (by show u.rxLen.toNat ≠ u.cfg.params.rxMax; omega)
  rw [happend]
  refine { h with state := rfl, len := ?_, stored := fun k hk => ?_ }
  · show (u.rxLen + 1).toNat = (raw ++ [v]).length
    rw [List.length_append, List.length_singleton]
    bv_omega
  · show (u.rxbuf.write u.rxLen.toNat v).read? k = (raw ++ [v])[k]?
    rw [Memory.read?_write, hlen]
    rw [List.length_append, List.length_singleton] at hk
    by_cases hlast : k = raw.length
    · rw [if_pos hlast, hlast, List.getElem?_concat_length]
    · have hold : k < raw.length := by omega
      rw [if_neg hlast, h.stored k hold, List.getElem?_append_left hold]

/-- One byte of an escaped sequence that fits: received now, or to be received with the next one. -/
theorem feed_escaped_byte {b : Byte} {bytes out : List Byte} (h : Receiving u esc raw e q)
    (hsoh : b ≠ u.cfg.params.soh) (heot : b ≠ u.cfg.params.eot)
    (hout : unescapeFrom u.cfg.params esc (b :: bytes) = some out)
    (hfits : (raw ++ out).length ≤ u.cfg.params.rxMax) :
    ∃ esc' raw' out', Receiving (u.feed b) esc' raw' e q ∧ unescapeFrom u.cfg.params esc' bytes = some out' ∧
      raw' ++ out' = raw ++ out := by
  have hroom {v : Byte} {out' : List Byte} (hcons : v :: out' = out) : raw.length < u.cfg.params.rxMax := by
    rw [← hcons, List.length_append, List.length_cons] at hfits
    omega
  cases esc with
  | false =>
    by_cases hdle : b = u.cfg.params.dle
    · subst hdle
      exact ⟨true, raw, out, h.feed_dle, (unescapeFrom_dle _ _).symm.trans hout, rfl⟩
    · rw [unescapeFrom_literal _ hdle, Option.map_eq_some_iff] at hout
      obtain ⟨out', hout', hcons⟩ := hout
      have hb : ¬ isSentinel u.cfg.params b := by simp only [isSentinel, hsoh, heot, hdle, or_self, not_false_iff]
      rw [State.feed_literal_of_inFrame h.state hb]
      exact ⟨false, raw ++ [b], out', h.append b (hroom hcons), hout', by rw [← hcons, ← List.append_cons]⟩
  | true =>
    obtain ⟨out', hout', hcons⟩ := Option.map_eq_some_iff.1 hout
    rw [State.feed_of_inEscape h.state hsoh heot]
    exact ⟨false, raw ++ [escapeXor b], out', h.append _ (hroom hcons), hout',
      by rw [← hcons, ← List.append_cons]⟩

/-- The bytes of an escaped sequence that fits, fed to a frame in progress: they are received unescaped, and no event is
posted on the way. -/
theorem feedAll_escaped {bytes out : List Byte} (h : Receiving u esc raw e q)
    (hsoh : u.cfg.params.soh ∉ bytes) (heot : u.cfg.params.eot ∉ bytes)
    (hout : unescapeFrom u.cfg.params esc bytes = some out) (hfits : (raw ++ out).length ≤ u.cfg.params.rxMax) :
    Receiving (u.feedAll bytes) false (raw ++ out) e q ∧
      ∀ j, ∃ esc' raw', Receiving (u.feedAll (bytes.take j)) esc' raw' e q := by
  induction bytes generalizing u esc raw out with
  | nil =>
    cases esc with
    | false =>
      cases hout
      exact ⟨(List.append_nil raw).symm ▸ h, fun j => ⟨false, raw, by rwa [List.take_nil]⟩⟩
    | true => cases hout
  | cons b bytes ih =>
    obtain ⟨hbsoh, hsoh⟩ := List.ne_and_not_mem_of_not_mem_cons hsoh
    obtain ⟨hbeot, heot⟩ := List.ne_and_not_mem_of_not_mem_cons heot
    obtain ⟨esc', raw', out', hb, hout', hsame⟩ := h.feed_escaped_byte hbsoh.symm hbeot.symm hout hfits
    rw [← u.feed_cfg b] at hsoh heot hout' hfits
    rw [← hsame] at hfits ⊢
    obtain ⟨hall, hpart⟩ := ih hb hsoh heot hout' hfits
    refine ⟨hall, fun j => ?_⟩
    cases j with
    | zero => exact ⟨esc, raw, h⟩
    | succ j => exact hpart j

/-- `EOT` behind a payload and its checksum: the stored bytes pass the check, and the checksum is no longer counted
(R176). -/
theorem feed_eot {payload : List Byte} {v : Byte} (h : Receiving u false (payload ++ [v]) e q)
    (hv : v = crc8 u.cfg.params.crcPoly u.seed payload) :
    ∃ t, u.feed u.cfg.params.eot = t ∧ t.rxState = .idle ∧ t.evt = .frameOk ∧ t.seq = q + 1 ∧
      t.rxLen.toNat = payload.length ∧ ∀ k, k < payload.length → t.rxbuf.read? k = payload[k]? := by
  have hlen := h.len
  have hstored := h.stored
  rw [List.length_append, List.length_singleton] at hlen hstored
  have hpayload {k : Nat} (hk : k < payload.length) : u.rxbuf.read? k = payload[k]? := by
    rw [hstored k (by omega), List.getElem?_append_left hk]
  have hchecksum : u.rxbuf.read? payload.length = some v := by
    rw [hstored _ (Nat.lt_succ_self _), List.getElem?_concat_length]
  have hok : u.checksumOk := by
    refine ⟨by omega, ?_⟩
    rw [hlen, Nat.add_sub_cancel, Memory.byteAt_of_read? _ hchecksum, hv,
      Memory.bytesAt_eq rfl fun k hk => (Nat.zero_add k).symm ▸ hpayload hk]
  have hlast : (u.rxLen - 1).toNat = payload.length := by bv_omega
  exact ⟨_, (State.feed_eot_of_inFrame h.state).trans (if_pos hok), rfl, rfl, congrArg (· + 1) h.seq, hlast,
    fun _ => hpayload⟩

end Receiving

/-! ## The frame of a payload -/

section Frame

variable {s : State} {payload : List Byte}

/-- The bytes of the frame of a payload between its `SOH` and its `EOT` (42_stuffing.md R145). -/
def State.frameBody (s : State) (payload : List Byte) : List Byte :=
  Machine.escape s.cfg.params (payload ++ [crc8 s.cfg.params.crcPoly s.seed payload])

theorem frame_eq_frameBody (s : State) (payload : List Byte) : Machine.frame s.cfg.params s.seed payload =
    s.cfg.params.soh :: (s.frameBody payload ++ [s.cfg.params.eot]) := rfl

theorem frame_ne_nil (s : State) (payload : List Byte) : Machine.frame s.cfg.params s.seed payload ≠ [] :=
  List.cons_ne_nil _ _

/-- The first bytes of a frame, some but not all, are its `SOH` and first bytes of its body. -/
theorem take_frame {j : Nat} (hj : j + 1 < (Machine.frame s.cfg.params s.seed payload).length) :
    (Machine.frame s.cfg.params s.seed payload).take (j + 1) =
      s.cfg.params.soh :: (s.frameBody payload).take j := by
  rw [frame_eq_frameBody, List.length_cons, List.length_append, List.length_singleton] at hj
  rw [frame_eq_frameBody, List.take_succ_cons, List.take_append_of_le_length (by omega)]

/-- Up to its `EOT` the frame of a payload that fits is received: the payload with its checksum, and after the first
byte no event is posted on the way. -/
theorem receiving_frameBody (hfits : payload.length + 1 ≤ s.cfg.params.rxMax) :
    Receiving (s.feedAll (s.cfg.params.soh :: s.frameBody payload)) false
        (payload ++ [crc8 s.cfg.params.crcPoly s.seed payload])
        (if s.rxState = .idle then s.evt else .aborted) (s.seq + if s.rxState = .idle then 0 else 1) ∧
      ∀ j, ∃ esc raw, Receiving (s.feedAll (s.cfg.params.soh :: (s.frameBody payload).take j)) esc raw
        (if s.rxState = .idle then s.evt else .aborted) (s.seq + if s.rxState = .idle then 0 else 1) := by
  refine (Receiving.feed_soh s).feedAll_escaped (out := payload ++ [_]) ?_ ?_ ?_ ?_ <;> rw [State.feed_cfg]
  · exact soh_notMem_escape s.cfg _
  · exact eot_notMem_escape s.cfg _
  · exact unescape_escape s.cfg.params _
  · rwa [List.nil_append, List.length_append, List.length_singleton]

/-- The whole frame of a payload that fits. -/
theorem feedAll_frame_accepted (hfits : payload.length + 1 ≤ s.cfg.params.rxMax) :
    ∃ t, s.feedAll (Machine.frame s.cfg.params s.seed payload) = t ∧
      t.rxState = .idle ∧ t.evt = .frameOk ∧ t.seq = s.seq + (if s.rxState = .idle then 1 else 2) ∧
      t.rxLen.toNat = payload.length ∧ ∀ k, k < payload.length → t.rxbuf.read? k = payload[k]? := by
  obtain ⟨t, ht, hstate, hevt, hseq, hlen, hstored⟩ :=
    (receiving_frameBody hfits).1.feed_eot (by rw [State.feedAll_cfg, State.feedAll_seed])
  rw [State.feedAll_cfg] at ht
  refine ⟨t, ?_, hstate, hevt, ?_, hlen, hstored⟩
  · rw [frame_eq_frameBody, ← List.cons_append, State.feedAll_append]
    exact ht
  · rw [hseq, BitVec.add_assoc]
    split <;> rfl

end Frame

/-- Settles O50: before its last byte the frame is being received; `EOT` then accepts it, and fed bytes write the
deframer's state only. -/
theorem frameIsAccepted : Obligations.FrameIsAccepted := by
  intro s payload rest hfits hhost
  refine ⟨fun k hpos hk => ?_, ?_⟩
  · obtain ⟨j, rfl⟩ := Nat.exists_eq_add_of_le' hpos
    obtain ⟨esc, raw, h⟩ := (receiving_frameBody hfits).2 j
    obtain ⟨host, resp, hrun⟩ := run_feedEvents_take hhost hk.le
    rw [take_frame hk] at hrun
    exact ⟨_, hrun, h.ne_idle, h.evt, h.seq⟩
  · have hrun := run_feedEvents hhost
    have hframe := s.feedAll_frame (Machine.frame s.cfg.params s.seed payload)
    rw [if_neg (frame_ne_nil s payload)] at hrun
    obtain ⟨t, ht, hstate, hevt, hseq, hlen, hstored⟩ := feedAll_frame_accepted hfits
    rw [ht] at hrun hframe
    refine ⟨_, hrun, hstate, hevt, hseq, hlen, hstored, ?_⟩
    exact congrArg (fun u : State => { u with host := rest, resp := .done }) hframe

end Sys2Proof.Machine
end

section
/-! PROOFS. A host program of legal accesses, NOP and the command words written to `CMD`
(44_host_access.md R200, R203, R211; 60_exceptions.md R226, R228). -/

namespace Sys2Proof.Machine

variable {s : State}

/-! ## A program of legal accesses -/

/-- At pending events that are all legal a step completes: there is none, it is a reset pulse, or the access is one that
20_memory.md R64 admits. -/
theorem exists_step_next_of_legal (hlegal : ∀ e ∈ s.host, e.Legal s.cfg) : ∃ t, step s = .next t := by
  obtain ⟨-, hreset, hidle⟩ := stepRunsTransaction s
  rcases hhost : s.host with _ | ⟨tr | _, rest⟩
  · exact ⟨s, hidle hhost⟩
  · exact (busFaults s tr rest hhost).1 (hlegal (.bus tr) (hhost ▸ List.mem_cons_self))
  · exact ⟨_, hreset rest hhost⟩

/-- Settles O10, by induction on the number of steps: a step drops one event and keeps the parameters, so the events
that remain are legal. -/
theorem legalProgramsRun : Obligations.LegalProgramsRun := by
  intro s hlegal k
  induction k generalizing s with
  | zero => exact ⟨s, run_zero s, rfl, rfl⟩
  | succ k ih =>
    obtain ⟨u, hstep⟩ := exists_step_next_of_legal hlegal
    obtain ⟨hhost, hcfg⟩ := stepTakesOneEvent s u hstep
    have hrest : ∀ e ∈ u.host, e.Legal u.cfg := by
      rw [hhost, hcfg]
      exact fun e he => hlegal e (List.mem_of_mem_tail he)
    obtain ⟨t, hrun, hdropped, hparams⟩ := ih u hrest
    exact ⟨t, (run_succ hstep).trans hrun, by rw [hdropped, hhost, List.drop_tail], hparams.trans hcfg⟩

/-! ## Commands -/

/-- Settles O22: the opcode 0x00 decodes to NOP with every `IMM8`. -/
theorem nopEffect : Obligations.NopEffect := fun _ => commandTakes_of_exec .nop (fun _ => rfl) rfl

/-- A command word written to `CMD` runs the command that it encodes (R203). -/
theorem exec_cmdWrite_of_command {w : Word} {c : Command} (h : decodeCommand w = .ok c) (s : State) :
    exec (.cmdWrite w) s = exec c.toInstr s := by
  show execCmdWrite w s = _
  unfold execCmdWrite
  rw [h]
  exact runCommand_eq_exec c s

/-- Settles O4: the word is a command, or the write of `CMD` fails; in both cases it completes. -/
theorem commandWrite : Obligations.CommandWrite := fun w s =>
  ⟨decodeTransaction_cmdWrite w, execCmdWrite_next w s, fun _ h => exec_cmdWrite_of_command h s,
    fun _ h => exec_cmdWrite_of_not_command (fun _ hc => nomatch h.symm.trans hc) s⟩

/-- The decoder of both formats reads a command word as the write of `CMD` does. -/
theorem exists_command_of_decode_cmd32 {w : Word} {i : Instr} (h : decode (.cmd32 w) = .ok i) :
    ∃ c, decodeCommand w = .ok c ∧ c.toInstr = i := by
  unfold decode at h
  cases hc : decodeCommand w with
  | ok c => exact ⟨c, rfl, by simpa only [hc, Except.ok.injEq] using h⟩
  | error e => simp only [hc, reduceCtorEq] at h

/-- Settles O8: the transaction is CMD_WRITE, and that runs the command. -/
theorem stepRunsCommandWord : Obligations.StepRunsCommandWord := by
  intro s w rest i hhost hdec
  obtain ⟨c, hc, rfl⟩ := exists_command_of_decode_cmd32 hdec
  exact (step_of_decodeTransaction hhost (decodeTransaction_cmdWrite w)).trans (exec_cmdWrite_of_command hc _)

end Sys2Proof.Machine
end

section
/-! PROOFS. The host's reads and writes of registers (44_host_access.md R201, R202). -/

namespace Sys2Proof.Machine

/-! ## Reads -/

/-- `IDF` and `SENT` put three bytes together below a reserved one. -/
theorem append_bytes_eq_or (b2 b1 b0 : Byte) :
    (0#8 ++ b2 ++ b1 ++ b0 : Word) = (b2.setWidth 32 <<< 16) ||| (b1.setWidth 32 <<< 8) ||| b0.setWidth 32 := by
  have h : (0#8 ++ b2 ++ b1 ++ b0 : Word).setWidth 32 = _ :=
    BitVec.setWidth_append_append_append_eq_shiftLeft_setWidth_or
  simpa using h

/-- `RXSTAT`: the codes of the last two fields fill their bits, and between them stand two reserved ones. -/
theorem regValue_RXSTAT (s : State) : s.regValue .RXSTAT = specRegValue s .RXSTAT := by
  have h : s.rxstatWord.setWidth 32 = _ := BitVec.setWidth_append_append_eq_shiftLeft_setWidth_or
  show s.rxstatWord = _ ||| _ ||| (evtNumber s.evt <<< 4) ||| stateNumber s.rxState
  rw [evtNumber_eq, stateNumber_eq, ← BitVec.setWidth_eq s.rxstatWord, h,
    BitVec.setWidth_append_append_eq_shiftLeft_setWidth_or]
  simp [BitVec.shiftLeft_or_distrib, ← BitVec.shiftLeft_add]

/-- Every register reads as 10_state.md R24 to R39 give it. -/
theorem regValue_eq_specRegValue (s : State) (r : Reg) : s.regValue r = specRegValue s r := by
  cases r with
  | STATUS => exact regValue_STATUS s
  | IDF => exact append_bytes_eq_or _ _ _
  | RXSTAT => exact regValue_RXSTAT s
  | SENT => exact append_bytes_eq_or _ _ _
  | SIZES =>
    apply BitVec.eq_of_toNat_eq
    have hfits := (s.regValue .SIZES).isLt
    rw [regValue_SIZES_toNat] at hfits ⊢
    exact (Nat.mod_eq_of_lt hfits).symm
  | _ => rfl

/-- A byte access to `REGS` is refused (R210). -/
theorem decodeTransaction_byteToRegs (dir : Dir) (r : Reg) (v : Word) :
    decodeTransaction ⟨dir, .byte, r.offset, v⟩ = .error .byteToRegs := by
  simp only [decodeTransaction, decodeByteAccess, regionOf_regOffset]

/-- Settles O53: the literal offset is the decoder's, and REG_READ answers the register's value. -/
theorem registerRead : Obligations.RegisterRead := by
  intro r v s
  rw [busOffset_eq, ← regValue_eq_specRegValue]
  exact ⟨decodeTransaction_regRead r v, decodeTransaction_byteToRegs .read r v, rfl⟩

/-! ## Writes -/

/-- The low bits of a word are what the mask keeps. -/
theorem setWidth_low_bits (v : Word) {n : Nat} (hn : n ≤ 32) :
    (v.extractLsb' 0 n).setWidth 32 = v &&& BitVec.ofNat 32 (2 ^ n - 1) := by
  have hpow : 2 ^ n ≤ 2 ^ 32 := Nat.pow_le_pow_right (by decide) hn
  have hpos : 0 < 2 ^ n := Nat.two_pow_pos n
  have hlow : v.toNat % 2 ^ n < 2 ^ n := Nat.mod_lt _ hpos
  apply BitVec.eq_of_toNat_eq
  rw [BitVec.toNat_setWidth, BitVec.extractLsb'_toNat, BitVec.toNat_and, BitVec.toNat_ofNat,
    Nat.mod_eq_of_lt (by omega : 2 ^ n - 1 < 2 ^ 32), Nat.and_two_pow_sub_one_eq_mod, Nat.shiftRight_zero,
    Nat.mod_eq_of_lt (by omega)]

/-- The three bytes that `IDF` stores are the low 24 bits. -/
theorem append_low_bytes (v : Word) :
    (0#8 ++ v.extractLsb' 16 8 ++ v.extractLsb' 8 8 ++ v.extractLsb' 0 8 : Word) =
      (v.extractLsb' 0 24).setWidth 32 := by
  have hupper : (0#8 ++ v.extractLsb' 16 8 : Half).toNat = _ := toNat_append_eq _ _
  apply BitVec.eq_of_toNat_eq
  rw [toNat_command_word (0#8 ++ v.extractLsb' 16 8), hupper]
  simp only [BitVec.toNat_setWidth, BitVec.extractLsb'_toNat, Nat.shiftRight_eq_div_pow, BitVec.toNat_ofNat]
  omega

/-- A write shows in the register written only. -/
theorem regValue_regStore (s : State) (v : Word) (r r' : Reg) :
    (s.regStore v r).regValue r' = if r' = r then (s.regStore v r).regValue r else s.regValue r' := by
  cases r <;> cases r' <;> rfl

/-- A register that stores reads back the bits of the value that its mask keeps. -/
theorem regValue_regStore_same (s : State) (v : Word) (r : Reg) :
    (s.regStore v r).regValue r = if writableMask r = 0 then s.regValue r else v &&& writableMask r := by
  cases r with
  | SRC | LEN | DST | CAP | SENDER => exact setWidth_low_bits v (n := 16) (by decide)
  | CRC | SEED => exact setWidth_low_bits v (n := 8) (by decide)
  | CANID => exact BitVec.and_allOnes.symm
  | IDF => exact (append_low_bytes v).trans (setWidth_low_bits v (by decide))
  | _ => rfl

/-- A register write writes no field beside those of the registers that store. -/
theorem State.regStore_eq_with (s : State) (v : Word) (r : Reg) : s.regStore v r =
    { s with src := (s.regStore v r).src, len := (s.regStore v r).len, dst := (s.regStore v r).dst,
             cap := (s.regStore v r).cap, crc := (s.regStore v r).crc, seed := (s.regStore v r).seed,
             canid := (s.regStore v r).canid, idGroup := (s.regStore v r).idGroup,
             idMode := (s.regStore v r).idMode, idCommand := (s.regStore v r).idCommand,
             sender := (s.regStore v r).sender } := by
  cases r <;> rfl

/-- Settles O54: the register written reads back, the others and everything else are as before. -/
theorem registerWrite : Obligations.RegisterWrite := by
  intro r v s hcmd hrx
  rw [busOffset_eq]
  refine ⟨decodeTransaction_regWrite_of_ne hcmd hrx v, s.regStore v r,
    exec_regWrite_of_patternOk (decide_eq_true ⟨hcmd, hrx⟩) s, fun r' => ?_, s.regStore_eq_with v r⟩
  rw [regValue_regStore, regValue_regStore_same]
  by_cases hr : r' = r
  · subst hr
    by_cases hmask : writableMask r' = 0 <;> simp [hmask]
  · simp [hr]

end Sys2Proof.Machine
end

section
/-! PROOFS. The host's reads and writes of the windows `BUF` and `RXBUF` (44_host_access.md R204 to R210). -/

namespace Sys2Proof.Machine

/-- The bus faults of both widths at a window (R210). -/
theorem window_faults (size : Nat) (a : BitVec 14) (s t : State) :
    (size ≤ a.toNat → byteWindow size a s = .fault .pastWindow) ∧
    (a.toNat % 4 ≠ 0 → wordWindow size a t = .fault .misaligned) ∧
    (a.toNat % 4 = 0 → size ≤ a.toNat + 3 → wordWindow size a t = .fault .pastWindow) :=
  ⟨fun hpast => if_neg (Nat.not_lt_of_le hpast), fun halign => if_pos halign,
    fun halign hpast => (if_neg (not_not.2 halign)).trans (if_neg (Nat.not_lt_of_le hpast))⟩

/-- Each byte of a word read that the memory holds stands in its place (20_memory.md R62). -/
theorem Memory.byte_of_wordAt_of_read? {m : Memory} {n d k : Nat} {x : Byte} (hk : k < 4)
    (h : m.read? (n + k) = some x) : (m.wordAt n d >>> (8 * k)).setWidth 8 = x :=
  (byte_of_wordAt m n d k hk).trans (byteAt_of_read? _ h)

/-- Settles O55: the window is at its offsets, and its reads complete inside it only. -/
theorem bufReads : Obligations.BufReads := by
  intro a w s
  rw [bufOffset_eq_add]
  exact ⟨decodeTransaction_bufReadB a w, fun halign => decodeTransaction_bufReadW halign w,
    fun hin => ⟨_, exec_bufReadB_of_byteAt hin rfl, fun _ => Memory.byteAt_of_read? _⟩,
    fun halign hlast => ⟨_, exec_bufReadW_of_wordAt ⟨halign, hlast⟩ rfl,
      fun _ hk _ => Memory.byte_of_wordAt_of_read? hk⟩,
    window_faults _ a _ _⟩

/-- Settles O57, as the reads of `BUF`; `RXLEN` plays no part. -/
theorem rxbufReads : Obligations.RxbufReads := by
  intro a w s
  rw [rxbufOffset_eq_add]
  exact ⟨decodeTransaction_rxbufReadB a w, fun halign => decodeTransaction_rxbufReadW halign w,
    fun hin => ⟨_, byteWindow_next_iff.2 ⟨hin, rfl⟩, fun _ => Memory.byteAt_of_read? _⟩,
    fun halign hlast => ⟨_, wordWindow_next_iff.2 ⟨⟨halign, hlast⟩, rfl⟩,
      fun _ hk _ => Memory.byte_of_wordAt_of_read? hk⟩,
    window_faults _ a _ _⟩

/-- What every address holds after a word write, little-endian (20_memory.md R62). -/
theorem Memory.read?_writeWord (m : Memory) (n b : Nat) (v : Word) :
    (m.writeAll n (bytesOfWord v)).read? b =
      if n ≤ b ∧ b < n + 4 then some ((v >>> (8 * (b - n))).setWidth 8) else m.read? b := by
  rw [read?_writeAll]
  refine if_ctx_congr Iff.rfl (fun h => ?_) fun _ => rfl
  exact getElem?_bytesOfWord v (b - n) (by omega)

/-- Settles O56: the window is at its offsets, and its writes complete inside it only. -/
theorem bufWrites : Obligations.BufWrites := by
  intro a v w s
  rw [bufOffset_eq_add, BitVec.setWidth_eq_extractLsb' (by decide : 8 ≤ 32)]
  exact ⟨decodeTransaction_bufWriteB a w, fun halign => decodeTransaction_bufWriteW halign w,
    fun hin => ⟨_, byteWindow_next_iff.2 ⟨hin, rfl⟩, fun _ => Memory.read?_write⟩,
    fun halign hlast => ⟨_, wordWindow_next_iff.2 ⟨⟨halign, hlast⟩, rfl⟩,
      fun b => s.buf.read?_writeWord a.toNat b w⟩,
    window_faults _ a _ _⟩

end Sys2Proof.Machine
end

section
/-! PROOFS. The error that a command reports and what a failing command leaves (60_exceptions.md R222, R223). -/

namespace Sys2Proof.Machine

variable {s t : State}

/-! ## A failing command changes `STATUS.ERR` only -/

/-- A command that takes `s` to `t` succeeds, or has written `STATUS.ERR` only; the count of draws is the model's own
(log 3). -/
def OkOrOnlyErr (s t : State) : Prop := t.err = .ok ∨ t = { s with err := t.err, draws := t.draws }

theorem okOrOnlyErr_raise (s : State) (e : ErrCode) : OkOrOnlyErr s (s.raise e) := .inr rfl

theorem okOrOnlyErr_sourceRead_raise (s : State) (e : ErrCode) : OkOrOnlyErr s (s.sourceRead.raise e) := .inr rfl

/-- The writing commands write `BUF` and `RESULT` after their last check only. -/
theorem okOrOnlyErr_transform (s : State) (f : List Byte → Except ErrCode (List Byte)) :
    OkOrOnlyErr s (s.transform f) := by
  rcases s.transform_cases f with ⟨-, h⟩ | ⟨-, -, -, e, -, h⟩ | ⟨-, -, -, _, -, -, h⟩ | ⟨-, -, -, _, -, -, h⟩ <;>
    rw [h]
  · exact okOrOnlyErr_raise s _
  · exact okOrOnlyErr_sourceRead_raise s e
  · exact okOrOnlyErr_sourceRead_raise s _
  · exact .inl rfl

/-- Every command is all or nothing. -/
theorem runCommand_okOrOnlyErr {c : Command} (hrun : runCommand c s = .next t) : OkOrOnlyErr s t := by
  cases c with
  | nop => cases hrun; exact .inl rfl
  | crcInit => cases hrun; exact .inl rfl
  | crcByte imm8 => cases hrun; exact .inl rfl
  | crcRange =>
    rcases execCrcRange_cases s with ⟨-, h⟩ | ⟨-, h⟩ <;> cases h.symm.trans hrun
    · exact okOrOnlyErr_raise s _
    · exact .inl rfl
  | idEncode =>
    rcases execIdEncode_cases s with ⟨-, h⟩ | ⟨-, _, -, h⟩ <;> cases h.symm.trans hrun
    · exact okOrOnlyErr_raise s _
    · exact .inl rfl
  | idDecode =>
    rcases execIdDecode_cases s with ⟨-, h⟩ | ⟨_, _, _, _, -, h⟩ <;> cases h.symm.trans hrun
    · exact okOrOnlyErr_raise s _
    · exact .inl rfl
  | escSize =>
    rcases execEscSize_cases s with ⟨-, h⟩ | ⟨-, h⟩ <;> cases h.symm.trans hrun
    · exact okOrOnlyErr_raise s _
    · exact .inl rfl
  | escape => cases hrun; exact okOrOnlyErr_transform s _
  | unescape => cases hrun; exact okOrOnlyErr_transform s _
  | frame => cases hrun; exact okOrOnlyErr_transform s _
  | rxReset => cases hrun; exact .inl rfl

/-- A word written to `CMD` is a command, or fails with IllegalCommand. -/
theorem execCmdWrite_okOrOnlyErr {w : Word} (hrun : execCmdWrite w s = .next t) : OkOrOnlyErr s t := by
  unfold execCmdWrite at hrun
  split at hrun
  · exact runCommand_okOrOnlyErr hrun
  · cases hrun
    exact okOrOnlyErr_raise s _

/-- Settles O45: a command that does not succeed has taken a failure branch, and those only raise the error. -/
theorem failureChangesOnlyErr : Obligations.FailureChangesOnlyErr := by
  intro i s t hc hrun herr
  have hall : OkOrOnlyErr s t := by
    obtain ⟨c, rfl⟩ | ⟨w, rfl⟩ := isCommand_cases hc
    · exact runCommand_okOrOnlyErr ((runCommand_eq_exec c s).trans hrun)
    · exact execCmdWrite_okOrOnlyErr hrun
  exact hall.resolve_left herr

/-! ## The order of checks -/

/-- The opcode of a command, as a number (30_encoding.md R82). -/
@[simp] def opcodeNumber : Command → Nat
  | .nop => 0x00
  | .crcInit => 0x01
  | .crcByte _ => 0x02
  | .crcRange => 0x03
  | .idEncode => 0x10
  | .idDecode => 0x11
  | .escSize => 0x20
  | .escape => 0x21
  | .unescape => 0x22
  | .frame => 0x23
  | .rxReset => 0x30

/-- The low byte of a word is its field `OPCODE`, as a number. -/
theorem toNat_and_0xFF (w : Word) : (w &&& 0xFF).toNat = (cmdOpcode w).toNat := by
  rw [and_0xFF_eq_setWidth, BitVec.toNat_setWidth_of_le (by decide : 8 ≤ 32)]

/-- The low byte of a command's word is the opcode of the command. -/
theorem toNat_and_0xFF_of_command {w : Word} {c : Command} (h : decodeCommand w = .ok c) :
    (w &&& 0xFF).toNat = opcodeNumber c := by
  have hop := (decodeOpcode_eq_ok_iff _ _ _).1 ((decodeCommand_eq_ok_iff w c).1 h).2
  rw [toNat_and_0xFF]
  cases c with
  | crcByte _ => exact congrArg BitVec.toNat hop.1
  | _ => exact congrArg BitVec.toNat hop

/-- The first check of R223 passes exactly for the words that are commands. -/
theorem exists_decodeCommand_iff_not_illegal (w : Word) :
    (∃ c, decodeCommand w = .ok c) ↔ ¬ (w >>> 16 ≠ 0 ∨
      (w &&& 0xFF).toNat ∉ [0x00, 0x01, 0x02, 0x03, 0x10, 0x11, 0x20, 0x21, 0x22, 0x23, 0x30]) := by
  rw [exists_decodeCommand_eq_ok_iff, not_or, not_not, not_not, ushiftRight_16_eq_zero_iff, toNat_and_0xFF]
  exact and_congr_right' (List.mem_map_of_injective BitVec.toNat_injective (l := listedOpcodes)).symm

/-- `decode` rejects a word exactly when no row of `CANID_PACK` has its upper half as the code (41_canid.md R124). -/
theorem canidDecode_eq_none_iff (p : Params) (w : Word) :
    canidDecode p w = none ↔ ∀ r ∈ p.packRows, r.code ≠ (w >>> 16).setWidth 16 := by
  rw [setWidth_ushiftRight_16, canidDecode, canidUnpack, Option.map_eq_none_iff, Option.map_eq_none_iff,
    List.find?_eq_none]
  simp only [decide_eq_true_eq, ne_eq]

/-- The error of a writing command: its ranges, then the error of the transform, then the capacity. -/
theorem State.transform_err (s : State) (f : List Byte → Except ErrCode (List Byte)) :
    (s.transform f).err =
      if ¬ s.SrcOK ∨ ¬ s.DstOK then .rangeError
      else if ¬ s.Disjoint then .rangeError
      else match f s.sourceBytes with
        | .error e => e
        | .ok out => if s.cap.toNat < out.length then .bufferTooSmall else .ok := by
  unfold State.transform
  simp only [← not_and_or]
  split
  · rfl
  · split
    · rfl
    · cases f s.sourceBytes with
      | error e => rfl
      | ok out => exact apply_ite State.err _ _ _

/-- A command ends with the first error of R223 that applies to its word. -/
theorem exists_exec_err_eq_expectedError {w : Word} {c : Command} (h : decodeCommand w = .ok c) (s : State) :
    ∃ t, exec c.toInstr s = .next t ∧ t.err = expectedError s w s.sourceBytes := by
  have hop : (w &&& 0xFF).toNat = opcodeNumber c := toNat_and_0xFF_of_command h
  rw [expectedError, if_neg ((exists_decodeCommand_iff_not_illegal w).1 ⟨c, h⟩)]
  simp only [hop]
  cases c with
  | nop => exact ⟨_, rfl, by simp⟩
  | crcInit => exact ⟨_, rfl, by simp⟩
  | crcByte imm8 => exact ⟨_, rfl, by simp⟩
  | crcRange =>
    rcases execCrcRange_cases s with ⟨hsrc, hrun⟩ | ⟨hsrc, hrun⟩ <;> exact ⟨_, hrun, by simp [hsrc]⟩
  | idEncode =>
    by_cases hdomain : s.idGroup ∈ s.cfg.params.groups ∧ s.idMode ∈ s.cfg.params.modes
    · obtain ⟨v, hv⟩ := exists_canidEncode_eq_some s.cfg hdomain.1 hdomain.2 s.idCommand s.sender
      exact ⟨_, exec_idEncode_of_canidEncode hv, by simp [hdomain]⟩
    · exact ⟨_, exec_idEncode_of_not_domain hdomain, by simp [hdomain]⟩
  | idDecode =>
    simp only [← canidDecode_eq_none_iff]
    rcases execIdDecode_cases s with ⟨hdec, hrun⟩ | ⟨_, _, _, _, hdec, hrun⟩ <;>
      exact ⟨_, hrun, by simp [hdec]⟩
  | escSize =>
    rcases execEscSize_cases s with ⟨hsrc, hrun⟩ | ⟨hsrc, hrun⟩ <;> exact ⟨_, hrun, by simp [hsrc]⟩
  | escape => exact ⟨_, rfl, by rw [State.transform_err]; simp⟩
  | unescape =>
    refine ⟨_, rfl, ?_⟩
    rw [State.transform_err]
    cases Machine.unescape s.cfg.params s.sourceBytes with
    | none => simp
    | some out => simp
  | frame => exact ⟨_, rfl, by rw [State.transform_err]; simp⟩
  | rxReset => exact ⟨_, rfl, by simp⟩

/-- Settles O44: a word that is no command fails the first check, and a command makes its own checks in the order. -/
theorem orderOfChecks : Obligations.OrderOfChecks := by
  intro w s
  by_cases hw : ∃ c, decodeCommand w = .ok c
  · obtain ⟨c, hc⟩ := hw
    obtain ⟨t, hrun, herr⟩ := exists_exec_err_eq_expectedError hc s
    exact ⟨s.sourceBytes, t, readsSource_sourceBytes s, (exec_cmdWrite_of_command hc s).trans hrun, herr⟩
  · refine ⟨s.sourceBytes, _, readsSource_sourceBytes s, exec_cmdWrite_of_not_command (not_exists.1 hw) s, ?_⟩
    exact (if_pos (not_not.1 (mt (exists_decodeCommand_iff_not_illegal w).2 hw))).symm

end Sys2Proof.Machine
end

section
/-! PROOFS. The state after reset, and reads of bytes that nothing has written (70_reset_and_hazards.md R250, R251). -/

namespace Sys2Proof.Machine

variable {s : State} {a : BitVec 14}

/-! ## The state after reset -/

/-- No register shows a field of the model's own. -/
theorem regValue_with_modelsOwn (s : State) (draws : Nat) (resp : BusResponse) (host : List HostEvent) (r : Reg) :
    ({ s with draws := draws, resp := resp, host := host } : State).regValue r = s.regValue r := by
  cases r <;> rfl

/-- Nothing is written in the memories after reset (R251). -/
theorem State.resetOf_read? (c : Config) (n : Nat) :
    (State.resetOf c).buf.read? n = none ∧ (State.resetOf c).rxbuf.read? n = none :=
  ⟨Memory.read?_nil, Memory.read?_nil⟩

/-- After reset the registers made of several fields read 0, because each field is 0 (R250). -/
theorem regValue_resetOf_of_fields (c : Config) :
    (State.resetOf c).regValue .STATUS = 0 ∧ (State.resetOf c).regValue .IDF = 0 ∧
      (State.resetOf c).regValue .RXSTAT = 0 :=
  ⟨(by decide : (0#28 ++ 0#4 : Word) = 0), (by decide : (0#8 ++ 0#8 ++ 0#8 ++ 0#8 : Word) = 0),
    (by decide : (0#16 ++ 0#8 ++ 0#4 ++ 0#2 ++ 0#2 : Word) = 0)⟩

/-- Settles O13: `SENT` and `SIZES` show the parameters, the other values stand in `State.resetOf`, and the state after a
reset pulse differs from it in fields of the model's own only. -/
theorem resetValues : Obligations.ResetValues := by
  refine ⟨fun c => ?_, fun s rest hhost => ?_⟩
  · obtain ⟨hstatus, hidf, hrxstat⟩ := regValue_resetOf_of_fields c
    exact ⟨rfl, rfl, regValue_SENT_toNat _, regValue_SIZES_toNat _, hstatus, rfl, rfl, rfl, rfl, rfl, rfl, rfl, rfl,
      hidf, rfl, hrxstat, rfl, rfl, rfl, rfl⟩
  · obtain ⟨-, hpulse, -⟩ := stepRunsTransaction s
    exact ⟨_, hpulse rest hhost, regValue_with_modelsOwn _ _ _ _, rfl, rfl, rfl, rfl, State.resetOf_read? s.cfg⟩

/-- Settles O15; `State.reset` is the reset state of the reference instance. -/
theorem invAtReset : Obligations.InvAtReset :=
  ⟨State.resetOf_inv, State.resetOf_inv Config.ref⟩

/-! ## Reads of unwritten bytes -/

/-- Each byte of a word read that the memory does not hold is the free byte of its place. -/
theorem Memory.byte_of_wordAt_of_unwritten {m : Memory} {n d k : Nat} (hk : k < 4) (h : m.read? (n + k) = none) :
    (m.wordAt n d >>> (8 * k)).setWidth 8 = Config.freeByte (d + k) :=
  (byte_of_wordAt m n d k hk).trans (byteAt_of_unwritten _ h)

/-- A byte read of `RXBUF` inside the window answers what the memory reads as there. -/
theorem exec_rxbufReadB_of_byteAt {x : Byte} (hin : ByteInWindow s.cfg.params.rxMax a)
    (hread : s.rxbuf.byteAt a.toNat s.draws = x) :
    exec (.rxbufReadB a) s = .next { s with resp := .byte x, draws := s.draws + 1 } :=
  byteWindow_next_iff.2 ⟨hin, hread ▸ rfl⟩

/-- A word read of `RXBUF` inside the window answers what the memory reads as there. -/
theorem exec_rxbufReadW_of_wordAt {w : Word} (hin : WordInWindow s.cfg.params.rxMax a)
    (hread : s.rxbuf.wordAt a.toNat s.draws = w) :
    exec (.rxbufReadW a) s = .next { s with resp := .word w, draws := s.draws + 4 } :=
  wordWindow_next_iff.2 ⟨hin, hread ▸ rfl⟩

/-- Settles O14: a read inside its window answers what the memory reads as, which is free where nothing is written. -/
theorem unwrittenBytesAreFree : Obligations.UnwrittenBytesAreFree := by
  refine ⟨State.resetOf_read?, fun s a => ⟨fun hin hnone => ?bufB, fun hin hnone => ?rxbufB,
    fun halign hlast => ?bufW, fun halign hlast => ?rxbufW⟩⟩
  case bufB => exact exec_bufReadB_of_byteAt hin (Memory.byteAt_of_unwritten _ hnone)
  case rxbufB => exact exec_rxbufReadB_of_byteAt hin (Memory.byteAt_of_unwritten _ hnone)
  case bufW =>
    exact ⟨_, exec_bufReadW_of_wordAt ⟨halign, hlast⟩ rfl, fun _ => Memory.byte_of_wordAt_of_unwritten⟩
  case rxbufW =>
    exact ⟨_, exec_rxbufReadW_of_wordAt ⟨halign, hlast⟩ rfl, fun _ => Memory.byte_of_wordAt_of_unwritten⟩

end Sys2Proof.Machine
end
